-- ==== Sys2Proof/Word.lean ====
section
/-!
DEFINITION. The word types of the hardware (spec/10_state.md, spec/00_scope.md section 4) and the two
grids that are neither bytes nor words: the keypad and the framebuffer.
-/

namespace Sys2Proof

/-- An 8-bit value: a register, a timer, a byte of memory (R10, R22, R40). -/
abbrev Byte := BitVec 8

/-- A 16-bit value: `I`, `pc`, a stack entry, an instruction word (R12, R13, R15, R61). -/
abbrev Word := BitVec 16

/-- The 12-bit address field `nnn` (R62). -/
abbrev Addr := BitVec 12

/-- The name of a general register, `V0` to `VF`: every 4-bit field names one (R10). -/
abbrev Reg := Fin 16

/-- Sixteen independent booleans, index 0 to 15, `true` for pressed (R24, R25). -/
abbrev Keys := Vector Bool 16

/-- The grid of one-bit cells: 64 rows counted from the top, 128 columns counted from the left (R17). -/
abbrev Framebuffer := Vector (Vector Bool 128) 64

/-- `VF`, register 15, which doubles as the flags register (R11). -/
abbrev vF : Reg := 15

end Sys2Proof
end

