-- ==== Sys2Proof/Machine/Flags.lean ====
section
/-!
DEFINITION. The flag values written to `VF` (spec/10_state.md R11, spec/41_alu.md R106 to R110, R112).
-/

namespace Sys2Proof.Machine

/-- A flag as the byte `VF` holds, 0 or 1. -/
def flagByte (c : Bool) : Byte := if c then 1 else 0

/-- Carry of the 9-bit sum: 1 iff `a + b > 255` (R106). -/
def carry (a b : Byte) : Byte := flagByte (decide (255 < a.toNat + b.toNat))

/-- Not-borrow: 1 iff the minuend is at least the subtrahend (R107, R109). -/
def notBorrow (minuend subtrahend : Byte) : Byte := flagByte (decide (subtrahend.toNat ≤ minuend.toNat))

/-- The bit a right shift moves out, bit 0 (R108). -/
def shiftedOutRight (t : Byte) : Byte := flagByte (t.getLsbD 0)

/-- The bit a left shift moves out, bit 7 (R110). -/
def shiftedOutLeft (t : Byte) : Byte := flagByte (t.getLsbD 7)

/-- The collision flag of a draw (R121). -/
def collision (c : Bool) : Byte := flagByte c

end Sys2Proof.Machine
end

