-- ==== Sys2Proof/Syntax.lean ====
section
/-!
DEFINITION. The instructions as syntax: one constructor per row of spec/opcode_table.json, in the table's order,
with the operands of its format (spec/30_encoding.md R62, R63, R64 to R66).
-/

namespace Sys2Proof

/-- The 43 instructions. `x`, `y` name registers, `kk` is the byte immediate, `nnn` the 12-bit address, `n` the
nibble immediate, a count (R69). -/
inductive Instr where
  /-- `00E0` CLS, R120. -/
  | cls
  /-- `00EE` RET, R80. -/
  | ret
  /-- `00FB` SCR, R123. -/
  | scr
  /-- `00FC` SCL, R124. -/
  | scl
  /-- `00FD` EXIT, R140. -/
  | exit
  /-- `00FE` LOW, R125. -/
  | low
  /-- `00FF` HIGH, R126. -/
  | high
  /-- `00Cn` SCD n, R122. -/
  | scd (n : Nat)
  /-- `1nnn` JP nnn, R82. -/
  | jp (nnn : Addr)
  /-- `2nnn` CALL nnn, R81. -/
  | call (nnn : Addr)
  /-- `3xkk` SE Vx, kk, R84. -/
  | seImm (x : Reg) (kk : Byte)
  /-- `4xkk` SNE Vx, kk, R85. -/
  | sneImm (x : Reg) (kk : Byte)
  /-- `5xy0` SE Vx, Vy, R86. -/
  | seReg (x y : Reg)
  /-- `6xkk` LD Vx, kk, R100. -/
  | ldImm (x : Reg) (kk : Byte)
  /-- `7xkk` ADD Vx, kk, R101. -/
  | addImm (x : Reg) (kk : Byte)
  /-- `8xy0` LD Vx, Vy, R102. -/
  | ldReg (x y : Reg)
  /-- `8xy1` OR Vx, Vy, R103. -/
  | orReg (x y : Reg)
  /-- `8xy2` AND Vx, Vy, R104. -/
  | andReg (x y : Reg)
  /-- `8xy3` XOR Vx, Vy, R105. -/
  | xorReg (x y : Reg)
  /-- `8xy4` ADD Vx, Vy, R106. -/
  | addReg (x y : Reg)
  /-- `8xy5` SUB Vx, Vy, R107. -/
  | subReg (x y : Reg)
  /-- `8xy6` SHR Vx, Vy, R108. -/
  | shr (x y : Reg)
  /-- `8xy7` SUBN Vx, Vy, R109. -/
  | subn (x y : Reg)
  /-- `8xyE` SHL Vx, Vy, R110. -/
  | shl (x y : Reg)
  /-- `9xy0` SNE Vx, Vy, R87. -/
  | sneReg (x y : Reg)
  /-- `Annn` LD I, nnn, R160. -/
  | ldI (nnn : Addr)
  /-- `Bnnn` JP V0, nnn, R83. -/
  | jpOff (nnn : Addr)
  /-- `Cxkk` RND Vx, kk, R111. -/
  | rnd (x : Reg) (kk : Byte)
  /-- `Dxyn` DRW Vx, Vy, n, R121. -/
  | drw (x y : Reg) (n : Nat)
  /-- `Ex9E` SKP Vx, R141. -/
  | skp (x : Reg)
  /-- `ExA1` SKNP Vx, R142. -/
  | sknp (x : Reg)
  /-- `Fx07` LD Vx, DT, R144. -/
  | ldVxDt (x : Reg)
  /-- `Fx0A` LD Vx, K, R143. -/
  | ldVxK (x : Reg)
  /-- `Fx15` LD DT, Vx, R145. -/
  | ldDtVx (x : Reg)
  /-- `Fx18` LD ST, Vx, R146. -/
  | ldStVx (x : Reg)
  /-- `Fx1E` ADD I, Vx, R161. -/
  | addIVx (x : Reg)
  /-- `Fx29` LD F, Vx, R162. -/
  | ldFVx (x : Reg)
  /-- `Fx30` LD HF, Vx, R163. -/
  | ldHfVx (x : Reg)
  /-- `Fx33` LD B, Vx, R164. -/
  | ldBVx (x : Reg)
  /-- `Fx55` LD [I], Vx, R165. -/
  | ldMemVx (x : Reg)
  /-- `Fx65` LD Vx, [I], R166. -/
  | ldVxMem (x : Reg)
  /-- `Fx75` LD R, Vx, R167. -/
  | ldRVx (x : Reg)
  /-- `Fx85` LD Vx, R, R168. -/
  | ldVxR (x : Reg)
deriving DecidableEq, Repr

end Sys2Proof
end

