-- ==== Sys2Proof/WellFormed.lean ====
section
/-!
DEFINITION. Which terms of Instr the hardware has. A register name, a byte and a 12-bit address are bounded by
their types; the nibble immediate `n` is a count and is checked here (spec/30_encoding.md R62, R69: 0 to 15).
-/

namespace Sys2Proof

/-- The largest value of the nibble immediate (R62). -/
def nibbleMax : Nat := 15

/-- The check of an instruction: its nibble immediate, where it has one, fits four bits (log 15). -/
def Instr.wf : Instr → Bool
  | .scd n => decide (n ≤ nibbleMax)
  | .drw _ _ n => decide (n ≤ nibbleMax)
  | .cls => true
  | .ret => true
  | .scr => true
  | .scl => true
  | .exit => true
  | .low => true
  | .high => true
  | .jp _ => true
  | .call _ => true
  | .seImm _ _ => true
  | .sneImm _ _ => true
  | .seReg _ _ => true
  | .ldImm _ _ => true
  | .addImm _ _ => true
  | .ldReg _ _ => true
  | .orReg _ _ => true
  | .andReg _ _ => true
  | .xorReg _ _ => true
  | .addReg _ _ => true
  | .subReg _ _ => true
  | .shr _ _ => true
  | .subn _ _ => true
  | .shl _ _ => true
  | .sneReg _ _ => true
  | .ldI _ => true
  | .jpOff _ => true
  | .rnd _ _ => true
  | .skp _ => true
  | .sknp _ => true
  | .ldVxDt _ => true
  | .ldVxK _ => true
  | .ldDtVx _ => true
  | .ldStVx _ => true
  | .addIVx _ => true
  | .ldFVx _ => true
  | .ldHfVx _ => true
  | .ldBVx _ => true
  | .ldMemVx _ => true
  | .ldVxMem _ => true
  | .ldRVx _ => true
  | .ldVxR _ => true

end Sys2Proof
end

