-- ==== Sys2Proof/Decode.lean ====
section
/-!
DEFINITION. Decoding (spec/30_encoding.md): the field record of a word, the three dispatch tables row by row as R64,
R65 and R66 print them, first match; the flat table of R74; the encoder; and the numbered-bits reading the host uses.
Every opcode value is the spec's, which marks it from general knowledge (log 16); four masks are the spec's decision D9 (log 17).
-/

namespace Sys2Proof

/-- The operand record of R62, produced for every word. -/
structure Fields where
  raw : Word
  nnn : Addr
  kk  : Byte
  n   : Nat
  x   : Reg
  y   : Reg
deriving DecidableEq, Repr

/-- The unsigned field of `w` that starts at bit `lo` and is four bits wide. -/
def nibbleAt (w : Word) (lo : Nat) : Fin 16 := (w.extractLsb' lo 4).toFin

/-- R62: every 16-bit value has a record; there is no error case. -/
def fields (w : Word) : Fields :=
  { raw := w
    nnn := w.extractLsb' 0 12
    kk  := w.extractLsb' 0 8
    n   := (nibbleAt w 0).val
    x   := nibbleAt w 8
    y   := nibbleAt w 4 }

/-- Why bytes are no instruction. -/
inductive Reject where
  /-- Fewer than the two bytes of an instruction (R61). -/
  | truncated
  /-- A whole word that no dispatch entry matches (R67, R71): the machine reports it and goes on. -/
  | unmatched (w : Word)
deriving DecidableEq, Repr

/-- An entry of a dispatch table: mask, expected value, and the instruction it selects (R68). -/
structure Row where
  mask   : Word
  expect : Word
  build  : Fields → Instr

/-- R68's comparison, `(raw & mask) == expected_value`. -/
def Row.hits (r : Row) (w : Word) : Bool := w &&& r.mask == r.expect

/-- The first entry of an ordered table that matches (R68). -/
def firstMatch (rows : List Row) (w : Word) : Option Instr :=
  (rows.find? (·.hits w)).map (·.build (fields w))

/-- Secondary table A, class `8xy_`, keyed on the low nibble (R65). -/
def tableA : List Row :=
  [ ⟨0x000F, 0x0000, fun f => .ldReg f.x f.y⟩,
    ⟨0x000F, 0x0001, fun f => .orReg f.x f.y⟩,
    ⟨0x000F, 0x0002, fun f => .andReg f.x f.y⟩,
    ⟨0x000F, 0x0003, fun f => .xorReg f.x f.y⟩,
    ⟨0x000F, 0x0004, fun f => .addReg f.x f.y⟩,
    ⟨0x000F, 0x0005, fun f => .subReg f.x f.y⟩,
    ⟨0x000F, 0x0006, fun f => .shr f.x f.y⟩,
    ⟨0x000F, 0x0007, fun f => .subn f.x f.y⟩,
    ⟨0x000F, 0x000E, fun f => .shl f.x f.y⟩ ]

/-- Secondary table F, class `Fx__`, keyed on the low byte (R66). -/
def tableF : List Row :=
  [ ⟨0x00FF, 0x0007, fun f => .ldVxDt f.x⟩,
    ⟨0x00FF, 0x000A, fun f => .ldVxK f.x⟩,
    ⟨0x00FF, 0x0015, fun f => .ldDtVx f.x⟩,
    ⟨0x00FF, 0x0018, fun f => .ldStVx f.x⟩,
    ⟨0x00FF, 0x001E, fun f => .addIVx f.x⟩,
    ⟨0x00FF, 0x0029, fun f => .ldFVx f.x⟩,
    ⟨0x00FF, 0x0030, fun f => .ldHfVx f.x⟩,
    ⟨0x00FF, 0x0033, fun f => .ldBVx f.x⟩,
    ⟨0x00FF, 0x0055, fun f => .ldMemVx f.x⟩,
    ⟨0x00FF, 0x0065, fun f => .ldVxMem f.x⟩,
    ⟨0x00FF, 0x0075, fun f => .ldRVx f.x⟩,
    ⟨0x00FF, 0x0085, fun f => .ldVxR f.x⟩ ]

/-- What a top-level entry does: it selects an instruction, or dispatches again (R64 entries 16 and 24). -/
inductive Target where
  | instr (build : Fields → Instr)
  | secondary (rows : List Row)

/-- An entry of the top-level table. -/
structure TopRow where
  mask   : Word
  expect : Word
  target : Target

/-- R68's comparison for a top-level entry. -/
def TopRow.hits (r : TopRow) (w : Word) : Bool := w &&& r.mask == r.expect

/-- The fully or almost fully fixed entries of class 0, entries 1 to 8 of R64. -/
def topRowsZero : List TopRow :=
  [ ⟨0xFFFF, 0x00E0, .instr fun _ => .cls⟩,
    ⟨0xFFFF, 0x00EE, .instr fun _ => .ret⟩,
    ⟨0xFFFF, 0x00FB, .instr fun _ => .scr⟩,
    ⟨0xFFFF, 0x00FC, .instr fun _ => .scl⟩,
    ⟨0xFFFF, 0x00FD, .instr fun _ => .exit⟩,
    ⟨0xFFFF, 0x00FE, .instr fun _ => .low⟩,
    ⟨0xFFFF, 0x00FF, .instr fun _ => .high⟩,
    ⟨0xFFF0, 0x00C0, .instr fun f => .scd f.n⟩ ]

/-- Entries 9 to 24 of R64. -/
def topRowsClasses : List TopRow :=
  [ ⟨0xF000, 0x1000, .instr fun f => .jp f.nnn⟩,
    ⟨0xF000, 0x2000, .instr fun f => .call f.nnn⟩,
    ⟨0xF000, 0x3000, .instr fun f => .seImm f.x f.kk⟩,
    ⟨0xF000, 0x4000, .instr fun f => .sneImm f.x f.kk⟩,
    ⟨0xF00F, 0x5000, .instr fun f => .seReg f.x f.y⟩,
    ⟨0xF000, 0x6000, .instr fun f => .ldImm f.x f.kk⟩,
    ⟨0xF000, 0x7000, .instr fun f => .addImm f.x f.kk⟩,
    ⟨0xF000, 0x8000, .secondary tableA⟩,
    ⟨0xF00F, 0x9000, .instr fun f => .sneReg f.x f.y⟩,
    ⟨0xF000, 0xA000, .instr fun f => .ldI f.nnn⟩,
    ⟨0xF000, 0xB000, .instr fun f => .jpOff f.nnn⟩,
    ⟨0xF000, 0xC000, .instr fun f => .rnd f.x f.kk⟩,
    ⟨0xF000, 0xD000, .instr fun f => .drw f.x f.y f.n⟩,
    ⟨0xF0FF, 0xE09E, .instr fun f => .skp f.x⟩,
    ⟨0xF0FF, 0xE0A1, .instr fun f => .sknp f.x⟩,
    ⟨0xF000, 0xF000, .secondary tableF⟩ ]

/-- The top-level table, 24 entries (R64). -/
def topTable : List TopRow := topRowsZero ++ topRowsClasses

/-- What an entry's target gives for a word. -/
def Target.run (t : Target) (w : Word) : Option Instr :=
  match t with
  | .instr build => some (build (fields w))
  | .secondary rows => firstMatch rows w

/-- The first entry of a top-level table that matches, run (R68). -/
def topMatch (rows : List TopRow) (w : Word) : Option Instr :=
  match rows.find? (·.hits w) with
  | some r => r.target.run w
  | none => none

/-- Dispatch through the nested tables (R64 to R68). -/
def dispatch (w : Word) : Option Instr := topMatch topTable w

/-- The decoder on one word, total: the instruction, or the word rejected by name (R67). -/
def decode (w : Word) : Except Reject Instr :=
  match dispatch w with
  | some i => .ok i
  | none => .error (.unmatched w)

/-- The word two stored bytes make: the byte at the lower address is the more significant (R42, R61). -/
def wordOf (hi lo : Byte) : Word := hi ++ lo

/-- The decoder on any bytes: the instruction at their head and the bytes after it. -/
def decodeBytes : List Byte → Except Reject (Instr × List Byte)
  | hi :: lo :: rest =>
    match decode (wordOf hi lo) with
    | .ok i => .ok (i, rest)
    | .error r => .error r
  | [_] => .error .truncated
  | [] => .error .truncated

/-- The flat equivalent of a row of a secondary table whose class nibble is `cls` (R74). -/
def Row.flat (cls : Word) (r : Row) : Row :=
  { mask := 0xF000 ||| r.mask, expect := cls ||| r.expect, build := r.build }

/-- The rows a top-level entry stands for in the flat form of R74. -/
def TopRow.flatRows (r : TopRow) : List Row :=
  match r.target with
  | .instr build => [⟨r.mask, r.expect, build⟩]
  | .secondary rows => rows.map (Row.flat r.expect)

/-- The flat table of R74: 43 rows, the form of spec/opcode_table.json. -/
def flatTable : List Row := topTable.flatMap TopRow.flatRows

/-- The encoder's four layouts, from the formats of R63. -/
def encNNN (cls : BitVec 4) (nnn : Addr) : Word := cls ++ nnn
def encXKK (cls : BitVec 4) (x : Reg) (kk : Byte) : Word := cls ++ BitVec.ofFin (w := 4) x ++ kk
def encXYN (cls : BitVec 4) (x y : Reg) (n : BitVec 4) : Word :=
  cls ++ BitVec.ofFin (w := 4) x ++ BitVec.ofFin (w := 4) y ++ n

/-- The word of a well-formed instruction, from the pattern column of R64, R65 and R66. -/
def encode : Instr → Word
  | .cls => 0x00E0
  | .ret => 0x00EE
  | .scr => 0x00FB
  | .scl => 0x00FC
  | .exit => 0x00FD
  | .low => 0x00FE
  | .high => 0x00FF
  | .scd n => (0x00C#12) ++ BitVec.ofNat 4 n
  | .jp nnn => encNNN 0x1 nnn
  | .call nnn => encNNN 0x2 nnn
  | .seImm x kk => encXKK 0x3 x kk
  | .sneImm x kk => encXKK 0x4 x kk
  | .seReg x y => encXYN 0x5 x y 0x0
  | .ldImm x kk => encXKK 0x6 x kk
  | .addImm x kk => encXKK 0x7 x kk
  | .ldReg x y => encXYN 0x8 x y 0x0
  | .orReg x y => encXYN 0x8 x y 0x1
  | .andReg x y => encXYN 0x8 x y 0x2
  | .xorReg x y => encXYN 0x8 x y 0x3
  | .addReg x y => encXYN 0x8 x y 0x4
  | .subReg x y => encXYN 0x8 x y 0x5
  | .shr x y => encXYN 0x8 x y 0x6
  | .subn x y => encXYN 0x8 x y 0x7
  | .shl x y => encXYN 0x8 x y 0xE
  | .sneReg x y => encXYN 0x9 x y 0x0
  | .ldI nnn => encNNN 0xA nnn
  | .jpOff nnn => encNNN 0xB nnn
  | .rnd x kk => encXKK 0xC x kk
  | .drw x y n => encXYN 0xD x y (BitVec.ofNat 4 n)
  | .skp x => encXKK 0xE x 0x9E
  | .sknp x => encXKK 0xE x 0xA1
  | .ldVxDt x => encXKK 0xF x 0x07
  | .ldVxK x => encXKK 0xF x 0x0A
  | .ldDtVx x => encXKK 0xF x 0x15
  | .ldStVx x => encXKK 0xF x 0x18
  | .addIVx x => encXKK 0xF x 0x1E
  | .ldFVx x => encXKK 0xF x 0x29
  | .ldHfVx x => encXKK 0xF x 0x30
  | .ldBVx x => encXKK 0xF x 0x33
  | .ldMemVx x => encXKK 0xF x 0x55
  | .ldVxMem x => encXKK 0xF x 0x65
  | .ldRVx x => encXKK 0xF x 0x75
  | .ldVxR x => encXKK 0xF x 0x85

/-- The bytes of a word as memory stores them, lower address first (R42). -/
def wordBytes (w : Word) : List Byte := [w.extractLsb' 8 8, w.extractLsb' 0 8]

/-- The word whose bits are `w`, of which the first `nbits` are given and every bit above is 0. -/
def tableWord (nbits w : Nat) : Word := BitVec.ofNat 16 (w % 2 ^ nbits)

/-- The instruction the decoder reads from an instruction whose bits, numbered as spec/opcode_table.json numbers
them, are `w`. -/
def decodeTableWord (nbits w : Nat) : Option Instr :=
  match decodeBytes (wordBytes (tableWord nbits w)) with
  | .ok (i, _) => some i
  | .error _ => none

end Sys2Proof
end

