-- ==== Sys2Proof/Config.lean ====
section
/-!
DEFINITION. What is fixed for the lifetime of a run (spec/00_scope.md R5, R6, R7): the fixed parameters, the
quirk record and its two profiles, the fonts; what a host can do; and the FREE VALUES, opaque constants without a body of which
nothing can be proved, so that a claim holds whatever they are.
-/

namespace Sys2Proof

/-- The six quirk booleans `Q` (R6): all 64 combinations are legal inputs of the core. -/
structure Quirks where
  vfReset  : Bool
  memory   : Bool
  clipping : Bool
  shift    : Bool
  jump     : Bool
  press    : Bool
deriving DecidableEq, Repr, Inhabited

/-- R6's table, the standard profile `CHIP_8`. -/
def Quirks.chip8 : Quirks :=
  { vfReset := true, memory := true, clipping := true, shift := false, jump := false, press := true }

/-- R6's table, the extended profile `SUPER_CHIP`. -/
def Quirks.superChip : Quirks :=
  { vfReset := false, memory := false, clipping := true, shift := true, jump := true, press := true }

/-- `SCROLL_STD`, what the three scrolls do in standard mode (R7, R127). -/
inductive ScrollStd where
  | noop
  | logical
  | full
deriving DecidableEq, Repr, Inhabited

/-- One operation the host applies to the core (R29). -/
inductive HostOp where
  /-- `Cycle(key, rnd)`: execute one instruction with this keypad sample and this drawn byte (R60). -/
  | cycle (key : Keys) (rnd : Byte)
  /-- `Tick()`: count both timers down (R190). -/
  | tick
  /-- `ClearDirty()` (R21). -/
  | clearDirty
deriving DecidableEq, Repr, Inhabited

/-- The values of the machine's state after a stop, which the spec leaves unspecified (R188 (b)); memory is
`Config.byteAfterStop`. -/
structure AfterStop where
  v      : Vector Byte 16
  index  : Word
  pc     : Word
  sp     : Fin 17
  stack  : Vector Word 16
  rpl    : Vector Byte 8
  fb     : Framebuffer
  ext    : Bool
  dirty  : Bool
  dt     : Byte
  st     : Byte
  prev   : Keys
  halted : Bool
deriving DecidableEq, Repr, Inhabited

namespace Config

/-- Size of main memory in bytes (R5, R40). -/
def memSize : Nat := 4096

/-- Base address and size of the small font (R5, R41). -/
def smallFontBase : Nat := 0x050
def smallFontSize : Nat := 80

/-- Base address and size of the big font (R5, R41). -/
def bigFontBase : Nat := 0x100
def bigFontSize : Nat := 160

/-- Program base address, the reset value of `pc` (R5, R36, R41). -/
def programBase : Nat := 0x200

/-- The largest ROM that fits, `4096 - 0x200` bytes (R202). -/
def romCapacity : Nat := memSize - programBase

/-- The default bytes of `SMALL_FONT` (R203): five bytes a glyph, digit 0 first.
PRESUMED (the spec marks it from general knowledge), log 4. -/
def smallFontBytes : List Byte :=
  [0xF0, 0x90, 0x90, 0x90, 0xF0] ++ [0x20, 0x60, 0x20, 0x20, 0x70] ++
  [0xF0, 0x10, 0xF0, 0x80, 0xF0] ++ [0xF0, 0x10, 0xF0, 0x10, 0xF0] ++
  [0x90, 0x90, 0xF0, 0x10, 0x10] ++ [0xF0, 0x80, 0xF0, 0x10, 0xF0] ++
  [0xF0, 0x80, 0xF0, 0x90, 0xF0] ++ [0xF0, 0x10, 0x20, 0x40, 0x40] ++
  [0xF0, 0x90, 0xF0, 0x90, 0xF0] ++ [0xF0, 0x90, 0xF0, 0x10, 0xF0] ++
  [0xF0, 0x90, 0xF0, 0x90, 0x90] ++ [0xE0, 0x90, 0xE0, 0x90, 0xE0] ++
  [0xF0, 0x80, 0x80, 0x80, 0xF0] ++ [0xE0, 0x90, 0x90, 0x90, 0xE0] ++
  [0xF0, 0x80, 0xF0, 0x80, 0xF0] ++ [0xF0, 0x80, 0xF0, 0x80, 0x80]

/-- `SMALL_FONT`'s default (R203). Reset may be given another (Machine/Load.lean). -/
def smallFont : Vector Byte 80 := ⟨smallFontBytes.toArray, rfl⟩

/-- `BIG_FONT`, ten bytes a glyph: the spec gives no bytes and no default (R204). A free value, log 3. -/
opaque bigFont : Vector Byte 160

/-- The quirk record supplied at reset: no default (R6, R35). A free value, log 2. -/
opaque quirks : Quirks

/-- `SCROLL_STD` supplied at reset: no default (R127). A free value, log 2. -/
opaque scrollStd : ScrollStd

/-- What the host does once the script of State is used up (R29, R194): any operation, a Cycle with any keypad sample
and any drawn byte (R24, R30), applied to the count of draws. A free value, log 1. -/
opaque hostOp : Nat → HostOp

/-- The state after a stop (R188 (b)), applied to the count of draws. A free value, log 5. -/
opaque afterStop : Nat → AfterStop

/-- The byte of memory at an address after a stop (R188 (b)), applied to the count of draws and the address.
A free value, log 5. -/
opaque byteAfterStop : Nat → Nat → Byte

end Config

end Sys2Proof
end

