-- ==== Sys2Proof/Machine/State.lean ====
section
/-!
DEFINITION. The machine's state as plain data (spec/10_state.md R10 to R27, R37; spec/20_memory.md R40), the reasons a
step stops, and the state after reset (R36, spec/70_reset_and_hazards.md R200, R201).
-/

namespace Sys2Proof.Machine

/-- Main memory (R40): the bytes that differ from what an unlisted address reads as (Machine/Memory.lean), addresses
strictly rising. -/
abbrev Memory := List Host.Cell

/-- The causes the stop latch can hold (R27, R181, R184). -/
inductive StopCause where
  /-- CALL with 16 pending calls (R81). -/
  | stackOverflow
  /-- RET with no pending call (R80). -/
  | stackUnderflow
  /-- A byte address of 4096 or more, on a fetch or on data (R45). -/
  | addressRange
  /-- A key index of 16 or more (R141, R142). -/
  | keyIndex
deriving DecidableEq, Repr

/-- The machine. Fields down to `stop` are the spec's mutable state (R37); `q` and `scrollStd` are parameters fixed at
reset (R28, R127); `key`, `rnd` and `diag` are the inputs and the output of the Cycle in progress or last done (R24, R30,
R34); `script` and `draws` are the model's own (log 1, log 12). -/
structure State where
  /-- `V0` to `VF` (R10). -/
  v : Vector Byte 16
  /-- The index register `I` (R12). -/
  index : Word
  /-- The program counter (R13). -/
  pc : Word
  /-- The call depth, 0 to 16 (R14). -/
  sp : Fin 17
  /-- The call stack (R15). -/
  stack : Vector Word 16
  /-- The RPL file (R16). -/
  rpl : Vector Byte 8
  /-- Main memory (R40). -/
  mem : Memory
  /-- The framebuffer (R17). -/
  fb : Framebuffer
  /-- The mode bit: true for extended, 128 by 64 (R18). -/
  ext : Bool
  /-- The dirty flag (R19). -/
  dirty : Bool
  /-- The delay timer `DT` (R22). -/
  dt : Byte
  /-- The sound timer `ST` (R23). -/
  st : Byte
  /-- The keypad sample of the previous Cycle (R25). -/
  prev : Keys
  /-- The halted flag (R26). -/
  halted : Bool
  /-- The stop latch (R27). -/
  stop : Option StopCause
  /-- The quirk configuration `Q` (R28). -/
  q : Quirks
  /-- `SCROLL_STD` (R127). -/
  scrollStd : ScrollStd
  /-- The keypad sample of this Cycle (R24). -/
  key : Keys
  /-- The byte drawn for this Cycle (R30). -/
  rnd : Byte
  /-- The diagnostic output of the last Cycle (R34). -/
  diag : Option Word
  /-- The host's coming operations, next one first (log 1). -/
  script : List HostOp
  /-- How many free values have been drawn (log 12). -/
  draws : Nat
deriving DecidableEq, Repr

/-- The stuck states: an operation was issued where the spec says it is not a transition. No instruction's meaning
raises either, both are raised by Machine/Cycle.lean, and both are SAFE: the machine of the spec makes no move there. -/
inductive Fault where
  /-- Any operation once `stop` is not `none` (R188 (a), R194). Safe. -/
  | operationAfterStop
  /-- A `Cycle` once `halted` is set (R60, R194). Safe. -/
  | cycleAfterHalt
deriving DecidableEq, Repr

/-- Why an instruction has no meaning. -/
inductive Refusal where
  /-- Raised by Machine/Dispatch.lean alone, for an instruction the model has not reached. Safe. -/
  | notModelled (mnemonic : String)
deriving DecidableEq, Repr

/-- What a step or a meaning answers. -/
abbrev Result := Host.Outcome State Fault Refusal

/-- The state after reset with the empty ROM (R36, R200, R201): `pc` and `sp` are the spec's; the zeros are its decision
D7 (log 6), the mode D8 (log 7), the parameters free (log 2), the model's own fields empty (log 1, 10, 12). A ROM is loaded
by Machine/Load.lean (log 9). -/
def State.reset : State :=
  { v := Vector.replicate 16 0
    index := 0
    pc := 0x0200
    sp := 0
    stack := Vector.replicate 16 0
    rpl := Vector.replicate 8 0
    mem := []
    fb := Vector.replicate 64 (Vector.replicate 128 false)
    ext := false
    dirty := false
    dt := 0
    st := 0
    prev := Vector.replicate 16 false
    halted := false
    stop := none
    q := Config.quirks
    scrollStd := Config.scrollStd
    key := Vector.replicate 16 false
    rnd := 0
    diag := none
    script := []
    draws := 0 }

end Sys2Proof.Machine
end

