-- ==== Sys2Proof/Machine/Memory.lean ====
section
/-!
DEFINITION. Main memory (spec/20_memory.md R40, R41, R44, R45, R53): what an unlisted address reads as, the canonical
form, and the one-byte accesses every wider transfer is made of.
-/

namespace Sys2Proof.Machine

/-- What an address that the list does not name reads as: the reset image of R201 with the empty ROM and
the default small font (R203, log 4); the big font's bytes are free (log 3), the zeros are decision D22 (log 8). -/
def Memory.unlisted (a : Nat) : Byte :=
  if Config.smallFontBase ≤ a ∧ a < Config.smallFontBase + Config.smallFontSize then
    Config.smallFont.toList.getD (a - Config.smallFontBase) 0
  else if Config.bigFontBase ≤ a ∧ a < Config.bigFontBase + Config.bigFontSize then
    Config.bigFont.toList.getD (a - Config.bigFontBase) 0
  else 0

/-- The canonical form: addresses strictly rising and inside memory, no entry an unlisted address would read as. -/
abbrev Memory.wf (m : Memory) : Prop :=
  m.Pairwise (fun p q => p.1 < q.1) ∧ ∀ p ∈ m, p.1 < Config.memSize ∧ p.2 ≠ Memory.unlisted p.1

/-- The byte at an address. -/
def Memory.read : Memory → Nat → Byte
  | [], a => Memory.unlisted a
  | (b, w) :: m, a => if a = b then w else Memory.read m a

/-- One entry put in front, unless an unlisted address would read as it. -/
def Memory.entry (a : Nat) (v : Byte) (m : Memory) : Memory :=
  if v = Memory.unlisted a then m else (a, v) :: m

/-- One byte written, the canonical form kept. -/
def Memory.write : Memory → Nat → Byte → Memory
  | [], a, v => Memory.entry a v []
  | (b, w) :: m, a, v =>
    if a < b then Memory.entry a v ((b, w) :: m)
    else if a = b then Memory.entry a v m
    else (b, w) :: Memory.write m a v

/-- Bytes written at ascending addresses (R44). -/
def Memory.writeBytes (m : Memory) (a : Nat) : List Byte → Memory
  | [] => m
  | v :: vs => Memory.writeBytes (m.write a v) (a + 1) vs

/-- `n` bytes read at ascending addresses (R44). -/
def Memory.readBytes (m : Memory) (a : Nat) : Nat → List Byte
  | 0 => []
  | n + 1 => m.read a :: Memory.readBytes m (a + 1) n

/-- The memory that holds `f a` at every address `a` from `start` on, `n` of them, in canonical form. -/
def Memory.tabulate (f : Nat → Byte) (start : Nat) : Nat → Memory
  | 0 => []
  | n + 1 => Memory.entry start (f start) (Memory.tabulate f (start + 1) n)

/-- `MemRead` of `n` bytes from `a` on: AddressRange if one of the addresses is 4096 or more (R45, R53). The address is
an unbounded number, never reduced. -/
def memRead (m : Memory) (a n : Nat) : Except StopCause (List Byte) :=
  if n = 0 ∨ a + n ≤ Config.memSize then .ok (m.readBytes a n) else .error .addressRange

/-- `MemWrite` of some bytes from `a` on: AddressRange if one of the addresses is 4096 or more (R45, R53). -/
def memWrite (m : Memory) (a : Nat) (bytes : List Byte) : Except StopCause Memory :=
  if bytes.length = 0 ∨ a + bytes.length ≤ Config.memSize then .ok (m.writeBytes a bytes) else .error .addressRange

end Sys2Proof.Machine
end

