-- ==== Sys2Proof/Machine/Ops.lean ====
section
/-!
DEFINITION. The named operations over registers and state that the meanings share, and the stop, the hardware's only
exception (spec/10_state.md, spec/30_encoding.md R60, spec/60_exceptions.md R181, R184, R188).
-/

namespace Sys2Proof.Machine

/-! ## Registers -/

/-- `V[i]` (R10). -/
def State.reg (s : State) (i : Reg) : Byte := s.v[i.val]

/-- `V[i] <- b` (R10). -/
def State.setReg (s : State) (i : Reg) (b : Byte) : State := { s with v := s.v.set i.val b }

/-- `V[F] <- b`, written last so that it wins over a result written to `VF` (R8). -/
def State.setFlag (s : State) (b : Byte) : State := s.setReg vF b

/-- `V0`, `V1`, … overwritten by the bytes of a list, as many as it has (R166, R168). -/
def State.setRegs (s : State) (bytes : List Byte) : State :=
  { s with v := Vector.ofFn fun i : Fin 16 => bytes[i.val]?.getD s.v[i.val] }

/-- `V0` to `V(n-1)` (R165, R167). -/
def State.firstRegs (s : State) (n : Nat) : List Byte := s.v.toList.take n

/-- `rpl[0]`, `rpl[1]`, … overwritten by the bytes of a list (R167). -/
def State.setRpl (s : State) (bytes : List Byte) : State :=
  { s with rpl := Vector.ofFn fun i : Fin 8 => bytes[i.val]?.getD s.rpl[i.val] }

/-- `I <- w` (R12). -/
def State.setIndex (s : State) (w : Word) : State := { s with index := w }

/-- `pc <- target` (R13). -/
def State.jump (s : State) (target : Word) : State := { s with pc := target }

/-- `pc <- (pc + 2) mod 65536`: step 3 of the Cycle (R60), and a taken skip (R88). -/
def State.advance (s : State) : State := s.jump (s.pc + 2)

/-- The skip: two more bytes when the condition holds (R88). -/
def State.skipIf (s : State) (c : Bool) : State := if c then s.advance else s

/-- `pc <- (pc - 2) mod 65536`: back to the instruction's own address (R143). -/
def State.rewind (s : State) : State := s.jump (s.pc - 2)

/-! ## Framebuffer -/

/-- `fb[r][c]`; outside the grid there is no cell and the answer is false (R17). -/
def cell (fb : Framebuffer) (r c : Nat) : Bool :=
  if h : r < 64 ∧ c < 128 then (fb[r]'h.1)[c]'h.2 else false

/-- The grid whose cells are given. -/
def ofCells (f : Nat → Nat → Bool) : Framebuffer :=
  Vector.ofFn fun r : Fin 64 => Vector.ofFn fun c : Fin 128 => f r.val c.val

/-- Every cell 0. -/
def blank : Framebuffer := Vector.replicate 64 (Vector.replicate 128 false)

/-- `fb[r][c] <- fb[r][c] xor 1`. -/
def flipCell (fb : Framebuffer) (r c : Nat) : Framebuffer :=
  if h : r < 64 ∧ c < 128 then
    fb.set r ((fb[r]'h.1).set c (!(fb[r]'h.1)[c]'h.2) h.2) h.1
  else fb

/-- The framebuffer replaced and `dirty` set (R19). -/
def State.redraw (s : State) (fb : Framebuffer) : State := { s with fb := fb, dirty := true }

/-- The logical width `W` (R18). -/
def State.width (s : State) : Nat := if s.ext then 128 else 64

/-- The logical height `H` (R18). -/
def State.height (s : State) : Nat := if s.ext then 64 else 32

/-! ## The stop -/

/-- `raise Fatal(cause)` and `raise Undefined(cause)`: `stop <- cause`. Nothing is saved and control goes nowhere; every
other piece of the machine's state is unspecified (R188 (b)) and takes a free value (log 5). The parameters, the inputs and
the host's script are not the machine's and stay; `diag` is an output of the Cycle and no word is reported for a stop (R34,
R185, log 11). There is no return from a stop (R189). -/
def State.stopped (s : State) (c : StopCause) : State :=
  let f := Config.afterStop s.draws
  { s with
    v := f.v
    index := f.index
    pc := f.pc
    sp := f.sp
    stack := f.stack
    rpl := f.rpl
    mem := Memory.tabulate (Config.byteAfterStop s.draws) 0 Config.memSize
    fb := f.fb
    ext := f.ext
    dirty := f.dirty
    dt := f.dt
    st := f.st
    prev := f.prev
    halted := f.halted
    diag := none
    stop := some c
    draws := s.draws + 1 }

/-- The end of a handler: it goes on, or it raises and the Cycle ends in the stop. -/
def State.orStop (s : State) : Except StopCause State → Result
  | .ok t => .next t
  | .error c => .next (s.stopped c)

/-! ## The call stack -/

/-- CALL's push: the test comes before anything is changed (R81). -/
def State.push (s : State) (w : Word) : Except StopCause State :=
  if h : s.sp.val < 16 then
    .ok { s with stack := s.stack.set s.sp.val w h, sp := ⟨s.sp.val + 1, Nat.succ_lt_succ h⟩ }
  else .error .stackOverflow

/-- RET's pop: the entry, and the state with the depth one less; the entry stays in the stack (R80). -/
def State.pop (s : State) : Except StopCause (Word × State) :=
  if h : s.sp.val = 0 then .error .stackUnderflow
  else
    .ok (s.stack[s.sp.val - 1]'(by have := s.sp.isLt; omega),
      { s with sp := ⟨s.sp.val - 1, by have := s.sp.isLt; omega⟩ })

/-! ## Fetch and the end of a Cycle -/

/-- Steps 1 and 2 of the Cycle: two bytes at `pc`, big-endian (R42, R60). -/
def State.fetch (s : State) : Except StopCause Word :=
  match memRead s.mem s.pc.toNat 2 with
  | .ok bytes => .ok (wordOf (bytes.getD 0 0) (bytes.getD 1 0))
  | .error c => .error c

/-- Step 6 of the Cycle: the keypad sample becomes the previous one (R25, R60). -/
def State.snapshot (s : State) : State := { s with prev := s.key }

/-- `report Unmatched(w)`, or `diag <- none` (R34, R60 step 5). -/
def State.report (s : State) (d : Option Word) : State := { s with diag := d }

end Sys2Proof.Machine
end

