-- ==== Sys2Proof/Machine/Operands.lean ====
section
/-!
DEFINITION. Operand forms: the computed operands of the instructions (spec/30_encoding.md R69): the shifted register, the
jump offset, font addresses, BCD digits, the index advance, sprite geometry and pixels, key lookup and key edges.
-/

namespace Sys2Proof.Machine

/-- A 12-bit address used as a 16-bit value (R69). -/
def addrWord (nnn : Addr) : Word := nnn.zeroExtend 16

/-- The register an 8-bit shift takes its input from (R108, R110). -/
def State.shiftInput (s : State) (x y : Reg) : Byte := if s.q.shift then s.reg x else s.reg y

/-- The target of `JP V0, nnn`: the register is `V0`, or `V[x]` with `x` the high nibble of `nnn` (R83, decision D3). -/
def State.offsetTarget (s : State) (nnn : Addr) : Word :=
  let r : Reg := if s.q.jump then (nnn.extractLsb' 8 4).toFin else 0
  addrWord nnn + (s.reg r).zeroExtend 16

/-- The address of a small-font glyph; the register value is not masked (R162). -/
def smallGlyph (b : Byte) : Word := BitVec.ofNat 16 (Config.smallFontBase + 5 * b.toNat)

/-- The address of a big-font glyph; the register value is masked to four bits (R163). -/
def bigGlyph (b : Byte) : Word := BitVec.ofNat 16 (Config.bigFontBase + 10 * (b &&& 0x0F).toNat)

/-- Hundreds, tens and units (R164). -/
def bcdDigits (a : Byte) : List Byte :=
  [BitVec.ofNat 8 (a.toNat / 100), BitVec.ofNat 8 (a.toNat / 10 % 10), BitVec.ofNat 8 (a.toNat % 10)]

/-- `I` after a block transfer up to `V[x]`: advanced by `x + 1` under the `memory` quirk (R165, R166, decision D28). -/
def State.blockIndex (s : State) (x : Reg) : Word :=
  if s.q.memory then s.index + BitVec.ofNat 16 (x.val + 1) else s.index

/-- How many registers an RPL transfer moves (R167, R168). -/
def rplCount (x : Reg) : Nat := min (x.val + 1) 8

/-! ## Keys -/

/-- `key[k]` or `prev[k]`. -/
def keyAt (keys : Keys) (k : Nat) : Bool := keys[k]?.getD false

/-- The state of the key `V[x]` names: an index of 16 or more stops the machine (R141, R142, decision D6). -/
def State.keyOf (s : State) (x : Reg) : Except StopCause Bool :=
  if (s.reg x).toNat < 16 then .ok (keyAt s.key (s.reg x).toNat) else .error .keyIndex

/-- The edge wait-for-key looks for on key `k`: a press with the `press` quirk, else a release (R143). -/
def State.edge (s : State) (k : Nat) : Bool :=
  if s.q.press then !keyAt s.prev k && keyAt s.key k else keyAt s.prev k && !keyAt s.key k

/-- The key wait-for-key finds: the lowest index with the edge (R143, decision D14). -/
def State.firstEdge (s : State) : Option Nat := (List.range 16).find? s.edge

/-! ## Sprites -/

/-- The size of a sprite: rows, columns, bytes a row. -/
structure Sprite where
  rows : Nat
  cols : Nat
  bpr  : Nat
deriving DecidableEq, Repr

/-- R121's three cases: 8 wide and `n` tall; 16 by 16 for `n = 0` in extended mode; nothing for `n = 0` in standard. -/
def spriteOf (n : Nat) (ext : Bool) : Sprite :=
  if n ≠ 0 then ⟨n, 8, 1⟩ else if ext then ⟨16, 16, 2⟩ else ⟨0, 8, 1⟩

/-- How many bytes of memory a sprite takes. -/
def Sprite.size (g : Sprite) : Nat := g.rows * g.bpr

/-- The bits of row `r`: one byte, or two with the one at the lower address on the left (R121 (d), decision D12). -/
def Sprite.rowBits (g : Sprite) (bytes : List Byte) (r : Nat) : Nat :=
  if g.bpr = 1 then (bytes.getD r 0).toNat
  else (bytes.getD (2 * r) 0 ++ bytes.getD (2 * r + 1) 0).toNat

/-- The sprite bit of row `r`, column `c`: the most significant bit is the leftmost pixel (R121 (e), decision D13). -/
def Sprite.bit (g : Sprite) (bytes : List Byte) (r c : Nat) : Bool :=
  (g.rowBits bytes r).testBit (g.cols - 1 - c)

/-- The 1-pixels of a sprite in R121's order, rows then columns, as (row, column) offsets. -/
def Sprite.pixels (g : Sprite) (bytes : List Byte) : List (Nat × Nat) :=
  ((List.range g.rows).flatMap fun r => (List.range g.cols).map fun c => (r, c)).filter fun p => g.bit bytes p.1 p.2

/-- Where a sprite pixel lands on a grid of `w` by `h`: nowhere if it is outside and clipped, else wrapped on each axis
(R121 (b), decision D26). -/
def landing (clip : Bool) (w h y0 x0 : Nat) (p : Nat × Nat) : Option (Nat × Nat) :=
  if h ≤ y0 + p.1 ∨ w ≤ x0 + p.2 then
    if clip then none else some ((y0 + p.1) % h, (x0 + p.2) % w)
  else some (y0 + p.1, x0 + p.2)

/-- The cells a draw flips, in order. -/
def State.targets (s : State) (x y : Reg) (n : Nat) (bytes : List Byte) : List (Nat × Nat) :=
  ((spriteOf n s.ext).pixels bytes).filterMap
    (landing s.q.clipping s.width s.height ((s.reg y).toNat % s.height) ((s.reg x).toNat % s.width))

/-- One pixel drawn: the collision is noted before the cell is flipped (R121 (c), decision D4). -/
def plot (acc : Framebuffer × Bool) (p : Nat × Nat) : Framebuffer × Bool :=
  (flipCell acc.1 p.1 p.2, acc.2 || cell acc.1 p.1 p.2)

/-- All pixels drawn in order: the new framebuffer and whether any collided. -/
def plotAll (fb : Framebuffer) (ps : List (Nat × Nat)) : Framebuffer × Bool := ps.foldl plot (fb, false)

/-! ## Scrolls -/

/-- The rows and columns a scroll acts on, or none where it is disabled (R127). -/
def State.scrollRegion (s : State) : Option (Nat × Nat) :=
  if s.ext then some (64, 128)
  else
    match s.scrollStd with
    | .noop => none
    | .logical => some (32, 64)
    | .full => some (64, 128)

/-- A scroll: inside the region each cell takes its new value, which may depend on the region's width; cells outside it
stay; `dirty` is set unless the scroll is disabled (R19, R122 to R124, R127). -/
def State.scroll (s : State) (new : Nat → Nat → Nat → Bool) : State :=
  { s with
    fb :=
      match s.scrollRegion with
      | none => s.fb
      | some (rh, rw) => ofCells fun r c => if r < rh ∧ c < rw then new rw r c else cell s.fb r c
    dirty := s.dirty || s.scrollRegion.isSome }

end Sys2Proof.Machine
end

