-- ==== Sys2Proof/Machine/Alu.lean ====
section
/-!
DEFINITION. The 8-bit register operations (spec/41_alu.md R100 to R112). Operands are read from the state the handler starts
in, the flag is written last (R8).
-/

namespace Sys2Proof.Machine

/-- The result of an operation, then its flag in `VF` (R8). -/
def State.setResult (s : State) (x : Reg) (b flag : Byte) : State := (s.setReg x b).setFlag flag

/-- The result of a logical operation; `VF` is cleared only under the `vfReset` quirk (R103 to R105). -/
def State.setLogic (s : State) (x : Reg) (b : Byte) : State :=
  if s.q.vfReset then s.setResult x b 0 else s.setReg x b

/-- LD Vx, kk (R100). -/
def execLdImm (x : Reg) (kk : Byte) (s : State) : Result := .next (s.setReg x kk)

/-- ADD Vx, kk: no flag (R101). -/
def execAddImm (x : Reg) (kk : Byte) (s : State) : Result := .next (s.setReg x (s.reg x + kk))

/-- LD Vx, Vy (R102). -/
def execLdReg (x y : Reg) (s : State) : Result := .next (s.setReg x (s.reg y))

/-- OR Vx, Vy (R103). -/
def execOrReg (x y : Reg) (s : State) : Result := .next (s.setLogic x (s.reg x ||| s.reg y))

/-- AND Vx, Vy (R104). -/
def execAndReg (x y : Reg) (s : State) : Result := .next (s.setLogic x (s.reg x &&& s.reg y))

/-- XOR Vx, Vy (R105). -/
def execXorReg (x y : Reg) (s : State) : Result := .next (s.setLogic x (s.reg x ^^^ s.reg y))

/-- ADD Vx, Vy with carry in `VF` (R106). -/
def execAddReg (x y : Reg) (s : State) : Result :=
  .next (s.setResult x (s.reg x + s.reg y) (carry (s.reg x) (s.reg y)))

/-- SUB Vx, Vy: the minuend is `V[x]` (R107, decision D35). -/
def execSubReg (x y : Reg) (s : State) : Result :=
  .next (s.setResult x (s.reg x - s.reg y) (notBorrow (s.reg x) (s.reg y)))

/-- SHR Vx, Vy (R108). -/
def execShr (x y : Reg) (s : State) : Result :=
  .next (s.setResult x (s.shiftInput x y >>> 1) (shiftedOutRight (s.shiftInput x y)))

/-- SUBN Vx, Vy: the minuend is `V[y]` (R109, decision D35). -/
def execSubn (x y : Reg) (s : State) : Result :=
  .next (s.setResult x (s.reg y - s.reg x) (notBorrow (s.reg y) (s.reg x)))

/-- SHL Vx, Vy (R110). -/
def execShl (x y : Reg) (s : State) : Result :=
  .next (s.setResult x (s.shiftInput x y <<< 1) (shiftedOutLeft (s.shiftInput x y)))

/-- RND Vx, kk: the Cycle's drawn byte, masked (R111). -/
def execRnd (x : Reg) (kk : Byte) (s : State) : Result := .next (s.setReg x (s.rnd &&& kk))

end Sys2Proof.Machine
end

