-- ==== Sys2Proof/Machine/ControlFlow.lean ====
section
/-!
DEFINITION. Return, call, jumps and skips (spec/40_control_flow.md R80 to R88). `pc` already holds the instruction's own
address plus 2 when a meaning runs (R88).
-/

namespace Sys2Proof.Machine

/-- RET: pop the return address into `pc`; StackUnderflow with no pending call (R80). -/
def execRet (s : State) : Result :=
  s.orStop <|
    match s.pop with
    | .ok (w, t) => .ok (t.jump w)
    | .error c => .error c

/-- CALL nnn: push `pc`, jump; StackOverflow with 16 pending calls (R81). -/
def execCall (nnn : Addr) (s : State) : Result :=
  s.orStop <|
    match s.push s.pc with
    | .ok t => .ok (t.jump (addrWord nnn))
    | .error c => .error c

/-- JP nnn (R82). -/
def execJp (nnn : Addr) (s : State) : Result := .next (s.jump (addrWord nnn))

/-- JP V0, nnn (R83). -/
def execJpOff (nnn : Addr) (s : State) : Result := .next (s.jump (s.offsetTarget nnn))

/-- SE Vx, kk (R84). -/
def execSeImm (x : Reg) (kk : Byte) (s : State) : Result := .next (s.skipIf (s.reg x == kk))

/-- SNE Vx, kk (R85). -/
def execSneImm (x : Reg) (kk : Byte) (s : State) : Result := .next (s.skipIf (s.reg x != kk))

/-- SE Vx, Vy (R86). -/
def execSeReg (x y : Reg) (s : State) : Result := .next (s.skipIf (s.reg x == s.reg y))

/-- SNE Vx, Vy (R87). -/
def execSneReg (x y : Reg) (s : State) : Result := .next (s.skipIf (s.reg x != s.reg y))

end Sys2Proof.Machine
end

