-- ==== Sys2Proof/Machine/Display.lean ====
section
/-!
DEFINITION. The framebuffer instructions (spec/42_display.md R120 to R127).
-/

namespace Sys2Proof.Machine

/-- CLS: the entire grid, whatever the mode (R120). -/
def execCls (s : State) : Result := .next (s.redraw blank)

/-- DRW Vx, Vy, n: all sprite bytes are read first, then the pixels are drawn, then `VF` gets the collision (R121). -/
def execDrw (x y : Reg) (n : Nat) (s : State) : Result :=
  s.orStop <|
    match memRead s.mem s.index.toNat (spriteOf n s.ext).size with
    | .ok bytes =>
      let drawn := plotAll s.fb (s.targets x y n bytes)
      .ok ((s.redraw drawn.1).setFlag (collision drawn.2))
    | .error c => .error c

/-- SCD n: down by `n` rows (R122). -/
def execScd (n : Nat) (s : State) : Result :=
  .next (s.scroll fun _ r c => if n ≤ r then cell s.fb (r - n) c else false)

/-- SCR: right by 4 columns (R123). -/
def execScr (s : State) : Result :=
  .next (s.scroll fun _ r c => if 4 ≤ c then cell s.fb r (c - 4) else false)

/-- SCL: left by 4 columns (R124). -/
def execScl (s : State) : Result :=
  .next (s.scroll fun rw r c => if c + 4 < rw then cell s.fb r (c + 4) else false)

/-- LOW: standard mode, cleared screen (R125). -/
def execLow (s : State) : Result := .next { s.redraw blank with ext := false }

/-- HIGH: extended mode, cleared screen (R126). -/
def execHigh (s : State) : Result := .next { s.redraw blank with ext := true }

end Sys2Proof.Machine
end

