-- ==== Sys2Proof/Machine/IndexMemory.lean ====
section
/-!
DEFINITION. Index register, font pointers, BCD, block and RPL transfers (spec/44_index_memory.md R160 to R168).
-/

namespace Sys2Proof.Machine

/-- LD I, nnn (R160). -/
def execLdI (nnn : Addr) (s : State) : Result := .next (s.setIndex (addrWord nnn))

/-- ADD I, Vx: 16 bits, no flag (R161). -/
def execAddIVx (x : Reg) (s : State) : Result := .next (s.setIndex (s.index + (s.reg x).zeroExtend 16))

/-- LD F, Vx (R162). -/
def execLdFVx (x : Reg) (s : State) : Result := .next (s.setIndex (smallGlyph (s.reg x)))

/-- LD HF, Vx (R163). -/
def execLdHfVx (x : Reg) (s : State) : Result := .next (s.setIndex (bigGlyph (s.reg x)))

/-- A store of some bytes at `I`, then `I` moved (R164, R165). -/
def State.storeAtIndex (s : State) (bytes : List Byte) (index : Word) : Result :=
  s.orStop <|
    match memWrite s.mem s.index.toNat bytes with
    | .ok m => .ok { s with mem := m, index := index }
    | .error c => .error c

/-- LD B, Vx: three digits at `I`, `I` unchanged (R164). -/
def execLdBVx (x : Reg) (s : State) : Result := s.storeAtIndex (bcdDigits (s.reg x)) s.index

/-- LD [I], Vx: `V0` to `Vx` stored at `I` (R165). -/
def execLdMemVx (x : Reg) (s : State) : Result := s.storeAtIndex (s.firstRegs (x.val + 1)) (s.blockIndex x)

/-- LD Vx, [I]: `V0` to `Vx` loaded from `I` (R166). -/
def execLdVxMem (x : Reg) (s : State) : Result :=
  s.orStop <|
    match memRead s.mem s.index.toNat (x.val + 1) with
    | .ok bytes => .ok ((s.setRegs bytes).setIndex (s.blockIndex x))
    | .error c => .error c

/-- LD R, Vx: RPL save (R167). -/
def execLdRVx (x : Reg) (s : State) : Result := .next (s.setRpl (s.firstRegs (rplCount x)))

/-- LD Vx, R: RPL load (R168). -/
def execLdVxR (x : Reg) (s : State) : Result := .next (s.setRegs (s.rpl.toList.take (rplCount x)))

end Sys2Proof.Machine
end

