-- ==== Sys2Proof/Machine/SystemKeysTimers.lean ====
section
/-!
DEFINITION. Halt, keypad and timer instructions (spec/43_system_keys_timers.md R140 to R146).
-/

namespace Sys2Proof.Machine

/-- EXIT (R140). -/
def execExit (s : State) : Result := .next { s with halted := true }

/-- SKP Vx: skip if the key is pressed; KeyIndex for an index of 16 or more (R141). -/
def execSkp (x : Reg) (s : State) : Result :=
  s.orStop <|
    match s.keyOf x with
    | .ok pressed => .ok (s.skipIf pressed)
    | .error c => .error c

/-- SKNP Vx: skip if the key is not pressed; KeyIndex for an index of 16 or more (R142). -/
def execSknp (x : Reg) (s : State) : Result :=
  s.orStop <|
    match s.keyOf x with
    | .ok pressed => .ok (s.skipIf (!pressed))
    | .error c => .error c

/-- LD Vx, K: the lowest key with the edge, or the instruction again (R143). -/
def execLdVxK (x : Reg) (s : State) : Result :=
  .next <|
    match s.firstEdge with
    | some k => s.setReg x (BitVec.ofNat 8 k)
    | none => s.rewind

/-- LD Vx, DT (R144). -/
def execLdVxDt (x : Reg) (s : State) : Result := .next (s.setReg x s.dt)

/-- LD DT, Vx (R145). -/
def execLdDtVx (x : Reg) (s : State) : Result := .next { s with dt := s.reg x }

/-- LD ST, Vx (R146). -/
def execLdStVx (x : Reg) (s : State) : Result := .next { s with st := s.reg x }

end Sys2Proof.Machine
end

