-- ==== Sys2Proof/Machine/Cycle.lean ====
section
/-!
DEFINITION. The three operations of the core (spec/10_state.md R21, R29; spec/30_encoding.md R60, R67;
spec/60_exceptions.md R190), and the host that issues them.
-/

namespace Sys2Proof.Machine

/-- Step 6 of the Cycle, which a Cycle that ended in a stop does not reach (R60). -/
def State.finish (s : State) : State := if s.stop.isNone then s.snapshot else s

/-- Steps 5 and 6 for a word: run its instruction with `diag` none, or report it and change nothing else (R60, R67). -/
def runWord (w : Word) (s : State) : Result :=
  match decode w with
  | .ok i =>
    match exec i (s.report none) with
    | .next t => .next t.finish
    | .fault f => .fault f
    | .refused r => .refused r
  | .error _ => .next (s.report (some w)).finish

/-- `Cycle` on a state that holds its inputs in `key` and `rnd` (R60). -/
def cycle (s : State) : Result :=
  match s.fetch with
  | .ok w => runWord w s.advance
  | .error c => .next (s.stopped c)

/-- A timer one lower, clamped at 0 (R22, R190). -/
def countDown (t : Byte) : Byte := if t = 0 then 0 else t - 1

/-- `Tick` (R190). -/
def tick (s : State) : State := { s with dt := countDown s.dt, st := countDown s.st }

/-- `ClearDirty` (R21). -/
def clearDirty (s : State) : State := { s with dirty := false }

/-- An operation issued by the host: none is a transition after a stop, `Cycle` is none after a halt (R60, R188, R190,
R194). -/
def perform (op : HostOp) (s : State) : Result :=
  if s.stop.isSome then .fault .operationAfterStop
  else
    match op with
    | .cycle key rnd =>
      if s.halted then .fault .cycleAfterHalt else cycle { s with key := key, rnd := rnd }
    | .tick => .next (tick s)
    | .clearDirty => .next (clearDirty s)

/-- The host's next operation, taken from the script. With the script used up the host goes on as it likes: a free
operation, with free inputs if it is a Cycle (R29, R194, log 1). -/
def State.takeOp (s : State) : HostOp × State :=
  match s.script with
  | op :: rest => (op, { s with script := rest })
  | [] => (Config.hostOp s.draws, { s with draws := s.draws + 1 })

/-- One operation of the machine. -/
def operate (s : State) : Result := perform s.takeOp.1 s.takeOp.2

/-- The state whose next operation is a Cycle that fetches the word `w`: the word is stored at `pc`, and whatever would
keep the machine from that Cycle is taken away (a stop, a halt, a fetch past memory, another operation in front, no operation at all). -/
def State.placeWord (s : State) (w : Word) : State :=
  let at' : Word := if s.pc.toNat + 2 ≤ Config.memSize then s.pc else BitVec.ofNat 16 Config.programBase
  { s with
    pc := at'
    mem := s.mem.writeBytes at'.toNat (wordBytes w)
    halted := false
    stop := none
    script :=
      match s.script with
      | .tick :: _ => .cycle s.key s.rnd :: s.script
      | .clearDirty :: _ => .cycle s.key s.rnd :: s.script
      | [] => [.cycle s.key s.rnd]
      | .cycle _ _ :: _ => s.script }

end Sys2Proof.Machine
end

