-- ==== Sys2Proof/Machine/Step.lean ====
section
/-!
DEFINITION. The step: one host operation (spec/00_scope.md R9, spec/10_state.md R29).
-/

namespace Sys2Proof.Machine

/-- One step of the machine, the next operation of the host (R9). -/
def step (s : State) : Host.Outcome State Fault Refusal := operate s

/-- `s` with an instruction, its bits numbered as spec/opcode_table.json numbers them, stored where the next step fetches. -/
def State.withFetchWord (s : State) (nbits w : Nat) : State := s.placeWord (tableWord nbits w)

end Sys2Proof.Machine
end

