-- ==== Sys2Proof/Machine/Load.lean ====
section
/-!
DEFINITION. Reset with its parameters (spec/70_reset_and_hazards.md R200 to R204): how the fonts and a program come into
memory.
-/

namespace Sys2Proof.Machine

/-- The memory image of R201: both fonts and the ROM over the image with the empty ROM. -/
def Memory.image (smallFont : Vector Byte 80) (bigFont : Vector Byte 160) (rom : List Byte) : Memory :=
  ((Memory.writeBytes [] Config.smallFontBase smallFont.toList).writeBytes Config.bigFontBase bigFont.toList).writeBytes
    Config.programBase rom

/-- Reset with a quirk record, a scroll setting, a big font, a ROM and a small font, which has a default (R200, R203, R204).
The ROM is copied verbatim to 0x200; one that does not fit is rejected before any state exists (R201, R202). -/
def State.resetWith (q : Quirks) (scrollStd : ScrollStd) (bigFont : Vector Byte 160) (rom : List Byte)
    (smallFont : Vector Byte 80 := Config.smallFont) : Option State :=
  if rom.length ≤ Config.romCapacity then
    some { State.reset with q := q, scrollStd := scrollStd, mem := Memory.image smallFont bigFont rom }
  else none

end Sys2Proof.Machine
end

