-- ==== Sys2Proof/Machine/Queries.lean ====
section
/-!
DEFINITION. The outputs the host reads between operations, pure functions of the state (spec/10_state.md R31 to R34,
R27; spec/60_exceptions.md R185).
-/

namespace Sys2Proof.Machine

/-- The framebuffer query's answer (R31). -/
structure FramebufferView where
  fb     : Framebuffer
  width  : Nat
  height : Nat
  dirty  : Bool
deriving DecidableEq, Repr

/-- The framebuffer query: the whole grid in either mode, the logical size and the dirty flag (R31). -/
def framebufferQuery (s : State) : FramebufferView :=
  { fb := s.fb, width := s.width, height := s.height, dirty := s.dirty }

/-- The audio signal: true whenever the sound timer is nonzero (R32). -/
def tone (s : State) : Bool := s.st != 0

/-- The halted query (R33). -/
def haltedQuery (s : State) : Bool := s.halted

/-- The diagnostic output of the last Cycle (R34). -/
def diagOutput (s : State) : Option Word := s.diag

/-- The code of the `stop` output (R185, decision D25). -/
def stopCode (s : State) : Nat :=
  match s.stop with
  | none => 0
  | some .stackOverflow => 1
  | some .stackUnderflow => 2
  | some .addressRange => 3
  | some .keyIndex => 4

end Sys2Proof.Machine
end

