-- ==== Sys2Proof/Safety.lean ====
section
/-!
DEFINITION. What a claim calls a good state or a good end of a run (spec/10_state.md R20, spec/60_exceptions.md R188,
R197), and the frames statements are written in.
-/

namespace Sys2Proof.Machine

/-- An instruction can execute: no stop, no halt (R60). -/
def State.running (s : State) : Prop := s.stop = none ∧ s.halted = false

/-- The successful end of a run (R197). -/
def State.finished (s : State) : Prop := s.halted = true ∧ s.stop = none

/-- A run that ended in a fault (R197). -/
def State.failed (s : State) : Prop := s.stop ≠ none

/-- R20: in standard mode, unless `SCROLL_STD` is `full`, every cell outside the visible grid is 0. It says nothing of a
stopped machine, whose state is unspecified (R188). -/
def State.hiddenCellsClear (s : State) : Prop :=
  s.stop = none → s.ext = false → s.scrollStd ≠ .full → ∀ r c, 32 ≤ r ∨ 64 ≤ c → cell s.fb r c = false

/-- The invariant of the machine: memory in canonical form, and R20. -/
def State.inv (s : State) : Prop := s.mem.wf ∧ s.hiddenCellsClear

/-- Every byte of memory reads as before. -/
def sameMemory (s t : State) : Prop := ∀ a, t.mem.read a = s.mem.read a

/-- Every byte of memory outside `n` bytes from `a` on reads as before. -/
def sameMemoryOutside (a n : Nat) (s t : State) : Prop := ∀ b, b < a ∨ a + n ≤ b → t.mem.read b = s.mem.read b

/-- The machine stopped with a cause and no word is reported (R34, R185); nothing is said of its state (R188). -/
def stopsWith (c : StopCause) (r : Result) : Prop := ∃ t, r = .next t ∧ t.stop = some c ∧ t.diag = none

/-- The next operation is `Cycle(key, rnd)`, it is defined (R60), and `u` is the state it runs on: the inputs are in place and
the operation is off the script. -/
def State.cycleReady (s : State) (key : Keys) (rnd : Byte) (u : State) : Prop :=
  s.running ∧ ∃ s', s.takeOp = (.cycle key rnd, s') ∧ u = { s' with key := key, rnd := rnd }

/-! ## The draw in terms of cells (R121) -/

/-- How many rows and columns a draw of height `n` has. -/
def drawRows (s : State) (n : Nat) : Nat := if n = 0 then (if s.ext then 16 else 0) else n
def drawCols (n : Nat) : Nat := if n = 0 then 16 else 8

/-- How many bytes from `I` on a draw reads. -/
def drawBytes (s : State) (n : Nat) : Nat := if n = 0 then (if s.ext then 32 else 0) else n

/-- The sprite pixel in row `j`, column `i`, read from memory at `I`. -/
def drawPixel (s : State) (n j i : Nat) : Bool :=
  if n = 0 then
    if i < 8 then (s.mem.read (s.index.toNat + 2 * j)).getLsbD (7 - i)
    else (s.mem.read (s.index.toNat + 2 * j + 1)).getLsbD (15 - i)
  else (s.mem.read (s.index.toNat + j)).getLsbD (7 - i)

/-- A 1-pixel of the sprite lands on the cell in row `r`, column `c`: with `clipping` at its own place inside the visible
grid, without it at its place reduced by the grid's height and width. -/
def drawnOn (s : State) (x y : Reg) (n r c : Nat) : Prop :=
  ∃ j i, j < drawRows s n ∧ i < drawCols n ∧ drawPixel s n j i = true ∧ r < s.height ∧ c < s.width ∧
    if s.q.clipping then
      r = (s.reg y).toNat % s.height + j ∧ c = (s.reg x).toNat % s.width + i
    else
      r = ((s.reg y).toNat % s.height + j) % s.height ∧ c = ((s.reg x).toNat % s.width + i) % s.width

/-! ## Where an instruction stops (R181, R184) -/

/-- The cause an instruction stops with, if it stops. -/
def stopOf (i : Instr) (s : State) : Option StopCause :=
  match i with
  | .ret => if s.sp.val = 0 then some .stackUnderflow else none
  | .call _ => if s.sp.val = 16 then some .stackOverflow else none
  | .skp x => if 16 ≤ (s.reg x).toNat then some .keyIndex else none
  | .sknp x => if 16 ≤ (s.reg x).toNat then some .keyIndex else none
  | .drw _ _ n => if 0 < drawBytes s n ∧ 4096 < s.index.toNat + drawBytes s n then some .addressRange else none
  | .ldBVx _ => if 4096 < s.index.toNat + 3 then some .addressRange else none
  | .ldMemVx x => if 4096 < s.index.toNat + (x.val + 1) then some .addressRange else none
  | .ldVxMem x => if 4096 < s.index.toNat + (x.val + 1) then some .addressRange else none
  | _ => none

/-! ## What an instruction may write (R11, R14 to R19, R22, R23, R26) -/

/-- The instruction may write `VF`: as its flag, or as a register it names as a destination (R11). -/
def writesFlag (q : Quirks) (i : Instr) : Prop :=
  match i with
  | .orReg x _ => q.vfReset = true ∨ x = vF
  | .andReg x _ => q.vfReset = true ∨ x = vF
  | .xorReg x _ => q.vfReset = true ∨ x = vF
  | .addReg _ _ => True
  | .subReg _ _ => True
  | .subn _ _ => True
  | .shr _ _ => True
  | .shl _ _ => True
  | .drw _ _ _ => True
  | .ldImm x _ => x = vF
  | .addImm x _ => x = vF
  | .ldReg x _ => x = vF
  | .rnd x _ => x = vF
  | .ldVxDt x => x = vF
  | .ldVxK x => x = vF
  | .ldVxMem x => x = vF
  | _ => False

/-- The instruction is one of the seven that draw (R19). -/
def isDisplay (i : Instr) : Prop :=
  match i with
  | .cls => True
  | .drw _ _ _ => True
  | .scd _ => True
  | .scr => True
  | .scl => True
  | .low => True
  | .high => True
  | _ => False

/-- The instruction reads the keypad sample (R24). -/
def readsKeypad (i : Instr) : Prop :=
  match i with
  | .skp _ => True
  | .sknp _ => True
  | .ldVxK _ => True
  | _ => False

end Sys2Proof.Machine
end

