-- ==== Sys2Proof/Certificates/Slice0/Obligations.lean ====
section
/-!
DEFINITION. The statements for the provers. Each docstring names the rule of spec/ it formalises; a clause that rests on a
decision of spec/92_eei_decisions.md or on the model's own choice names it. `exec i s` runs on the state whose `pc` is already
past the instruction (R88). A frame `t = { s with v := t.v, … }` says that every field not named is as before.
-/

open Sys2Proof Sys2Proof.Machine

/-! ## Encoding -/

/-- R62 to R66: decoding an encoded well-formed instruction gives it back, with every operand at every value. -/
def Obligations.DecodeOfEncode : Prop := ∀ i : Instr, i.wf = true → decode (encode i) = .ok i

/-- R62 to R66: an instruction the decoder gives is well-formed and its encoding is the word it was decoded from, so no two
words mean one instruction and no bit is ignored. -/
def Obligations.EncodeOfDecode : Prop := ∀ (w : Word) (i : Instr), decode w = .ok i → i.wf = true ∧ encode i = w

/-- R71's table: the words that match nothing, class by class (classes 5, 9 and E by decision D9, log 17). -/
def Obligations.UnmatchedWordsAreTheTable : Prop :=
  ∀ w : Word, (∀ i, decode w ≠ .ok i) ↔
    (w.toNat < 0x1000 ∧ ¬ (0x00C0 ≤ w.toNat ∧ w.toNat ≤ 0x00CF) ∧ w.toNat ≠ 0x00E0 ∧ w.toNat ≠ 0x00EE ∧
      ¬ (0x00FB ≤ w.toNat ∧ w.toNat ≤ 0x00FF)) ∨
    (w.toNat / 0x1000 = 5 ∧ w.toNat % 16 ≠ 0) ∨
    (w.toNat / 0x1000 = 8 ∧ w.toNat % 16 ∈ [0x8, 0x9, 0xA, 0xB, 0xC, 0xD, 0xF]) ∨
    (w.toNat / 0x1000 = 9 ∧ w.toNat % 16 ≠ 0) ∨
    (w.toNat / 0x1000 = 0xE ∧ w.toNat % 256 ≠ 0x9E ∧ w.toNat % 256 ≠ 0xA1) ∨
    (w.toNat / 0x1000 = 0xF ∧
      w.toNat % 256 ∉ [0x07, 0x0A, 0x15, 0x18, 0x1E, 0x29, 0x30, 0x33, 0x55, 0x65, 0x75, 0x85])

/-- Words written out from the spec's tables (95_test_vectors 2.1, 2.2): a sanity statement. -/
def Obligations.SpecWordsDecode : Prop :=
  decode 0x00E0 = .ok .cls ∧ decode 0x00CF = .ok (.scd 15) ∧ decode 0x5120 = .ok (.seReg 1 2) ∧
    decode 0x812E = .ok (.shl 1 2) ∧ decode 0xD12A = .ok (.drw 1 2 10) ∧ decode 0xEFA1 = .ok (.sknp 15) ∧
    decode 0xF165 = .ok (.ldVxMem 1) ∧ decode 0x8128 = .error (.unmatched 0x8128)

/-- R74: the flat table of 43 rows and the nested tables give every word the same instruction. -/
def Obligations.FlatTableAgreesWithNested : Prop :=
  flatTable.length = 43 ∧ ∀ w : Word, firstMatch flatTable w = dispatch w

/-- R68: the first entry whose masked comparison holds is the one that is run, and no word matches two entries of one
table. -/
def Obligations.FirstMatchAndExclusive : Prop :=
  (∀ (w : Word) (pre : List TopRow) (r : TopRow) (post : List TopRow),
      (∀ p ∈ pre, w &&& p.mask ≠ p.expect) → w &&& r.mask = r.expect →
      topMatch (pre ++ r :: post) w = r.target.run w) ∧
    (∀ (w : Word) (pre : List Row) (r : Row) (post : List Row),
      (∀ p ∈ pre, w &&& p.mask ≠ p.expect) → w &&& r.mask = r.expect →
      firstMatch (pre ++ r :: post) w = some (r.build (fields w))) ∧
    ∀ w : Word,
      topTable.Pairwise (fun p r => ¬ (w &&& p.mask = p.expect ∧ w &&& r.mask = r.expect)) ∧
        tableA.Pairwise (fun p r => ¬ (w &&& p.mask = p.expect ∧ w &&& r.mask = r.expect)) ∧
        tableF.Pairwise (fun p r => ¬ (w &&& p.mask = p.expect ∧ w &&& r.mask = r.expect))

/-! ## The step -/

/-- R60: a Cycle whose fetched word decodes runs that instruction on the advanced state with `diag` none, then takes the
keypad snapshot unless the instruction stopped the machine. -/
def Obligations.StepRunsDecodedInstruction : Prop :=
  ∀ (s u : State) (key : Keys) (rnd : Byte) (i : Instr), s.cycleReady key rnd u → u.pc.toNat < 4095 →
    decode (u.mem.read u.pc.toNat ++ u.mem.read (u.pc.toNat + 1)) = .ok i →
    ∀ t, exec i { u with pc := u.pc + 2, diag := none } = .next t →
      step s = .next (if t.stop = none then { t with prev := t.key } else t)

/-- R67: a word that matches nothing advances `pc` by 2, is reported, and the snapshot is taken; nothing else changes. -/
def Obligations.UnmatchedWordIsReportedNoOp : Prop :=
  ∀ (s u : State) (key : Keys) (rnd : Byte), s.cycleReady key rnd u → u.pc.toNat < 4095 →
    (∀ i, decode (u.mem.read u.pc.toNat ++ u.mem.read (u.pc.toNat + 1)) ≠ .ok i) →
    ∃ t, step s = .next t ∧ t.pc.toNat = (u.pc.toNat + 2) % 65536 ∧ t.prev = key ∧
      t.diag = some (u.mem.read u.pc.toNat ++ u.mem.read (u.pc.toNat + 1)) ∧
      t = { u with pc := t.pc, prev := t.prev, diag := t.diag } ∧ t.stop = none

/-- R42, R43: the fetch reads the big-endian word at any `pc`, even or odd; R45 (decision D5, log 18): from 4095 on the Cycle
stops the machine with AddressRange. -/
def Obligations.FetchBigEndianOrAddressRange : Prop :=
  ∀ s : State,
    (s.pc.toNat < 4095 →
      ∃ w, s.fetch = .ok w ∧
        w.toNat = 256 * (s.mem.read s.pc.toNat).toNat + (s.mem.read (s.pc.toNat + 1)).toNat) ∧
      ∀ key rnd u, s.cycleReady key rnd u → 4095 ≤ s.pc.toNat → stopsWith .addressRange (step s)

/-- R190 (with a halted machine by decision D24): Tick counts each timer down, clamped at 0, and changes nothing else. -/
def Obligations.TickCountsBothTimersDown : Prop :=
  ∀ (s : State) (rest : List HostOp), s.stop = none → s.script = .tick :: rest →
    ∃ t, step s = .next t ∧ t.dt.toNat = s.dt.toNat - 1 ∧ t.st.toNat = s.st.toNat - 1 ∧
      t = { s with dt := t.dt, st := t.st, script := rest }

/-- R21 (decision D30): ClearDirty sets `dirty` to 0 and changes nothing else, halted or not. -/
def Obligations.ClearDirtyClearsOnlyDirty : Prop :=
  ∀ (s : State) (rest : List HostOp), s.stop = none → s.script = .clearDirty :: rest →
    ∃ t, step s = .next t ∧ t.dirty = false ∧ t = { s with dirty := t.dirty, script := rest }

/-- R60, R188 (a), R190, R194 (decisions D15, D16, D24; the two named faults are the model's, log 13): a step is no transition
exactly after a stop, or when a Cycle comes next on a halted machine; and no step is refused. -/
def Obligations.StepIsStuckExactly : Prop :=
  ∀ s : State,
    (step s = .fault .operationAfterStop ↔ s.stop ≠ none) ∧
      (step s = .fault .cycleAfterHalt ↔ s.stop = none ∧ s.halted = true ∧ ∃ key rnd u, s.takeOp = (.cycle key rnd, u)) ∧
      ∀ r, step s ≠ .refused r

/-- The model's choice, log 1: the host's operations are taken from the script in order, and with the script used up the host
issues a free operation, whichever it is. -/
def Obligations.ScriptIsTakenInOrder : Prop :=
  ∀ s : State,
    (∀ op rest, s.script = op :: rest → step s = perform op { s with script := rest }) ∧
      (s.script = [] → step s = perform (Config.hostOp s.draws) { s with draws := s.draws + 1 })

/-- Wherever the machine stands, the placed word is what the next step fetches and runs (log 9). -/
def Obligations.PlacedWordIsFetchedNext : Prop :=
  ∀ (s : State) (w : Word), s.mem.wf →
    ∃ key rnd u, (s.withFetchWord 16 w.toNat).cycleReady key rnd u ∧ u.fetch = .ok w

/-! ## Reset -/

/-- R36: the state after reset (`pc` and `sp` the spec's, the zeros decision D7, the mode D8, `stop` D15). -/
def Obligations.ResetState : Prop :=
  State.reset.pc = 0x200 ∧ State.reset.sp = 0 ∧ (∀ r, State.reset.reg r = 0) ∧ State.reset.index = 0 ∧
    (∀ k (h : k < 16), State.reset.stack[k] = 0) ∧ (∀ k (h : k < 8), State.reset.rpl[k] = 0) ∧
    (∀ r c, cell State.reset.fb r c = false) ∧ State.reset.ext = false ∧ State.reset.dirty = false ∧
    State.reset.dt = 0 ∧ State.reset.st = 0 ∧ (∀ k, keyAt State.reset.prev k = false) ∧
    State.reset.halted = false ∧ State.reset.stop = none

/-- R201, R202 (zero fill by decision D22): the memory image for any two fonts and any ROM that fits, and no machine for a
ROM that does not. -/
def Obligations.ResetMemoryImage : Prop :=
  ∀ (q : Quirks) (sc : ScrollStd) (small : Vector Byte 80) (big : Vector Byte 160) (rom : List Byte),
    (3584 < rom.length → State.resetWith q sc big rom small = none) ∧
      (rom.length ≤ 3584 →
        ∃ s, State.resetWith q sc big rom small = some s ∧ s = { State.reset with q := q, scrollStd := sc, mem := s.mem } ∧
          ∀ a, a < 4096 →
            s.mem.read a =
              if 0x050 ≤ a ∧ a < 0x0A0 then small.toList.getD (a - 0x050) 0
              else if 0x100 ≤ a ∧ a < 0x1A0 then big.toList.getD (a - 0x100) 0
              else if 0x200 ≤ a ∧ a < 0x200 + rom.length then rom.getD (a - 0x200) 0
              else 0)

/-- The invariant (memory in canonical form, and R20) holds at reset, with the empty ROM and with any parameters, fonts and
ROM. -/
def Obligations.InvariantAtReset : Prop :=
  State.reset.inv ∧
    ∀ (q : Quirks) (sc : ScrollStd) (small : Vector Byte 80) (big : Vector Byte 160) (rom : List Byte) (s : State),
      State.resetWith q sc big rom small = some s → s.inv

/-- R20 and the canonical form of memory: whatever a step does from a state with the invariant, the next state has it. -/
def Obligations.StepKeepsInvariant : Prop := ∀ s t : State, s.inv → step s = .next t → t.inv

/-! ## Memory -/

/-- R53 (decision D5): a byte access beyond 4095 raises AddressRange; a store changes its byte and no other; a read gives the
byte and, having no state of its own, changes nothing. -/
def Obligations.OneByteAccesses : Prop :=
  ∀ (m : Memory) (a : Nat) (v : Byte), m.wf →
    (4096 ≤ a → memRead m a 1 = .error .addressRange ∧ memWrite m a [v] = .error .addressRange) ∧
      (a < 4096 →
        memRead m a 1 = .ok [m.read a] ∧
          ∃ m', memWrite m a [v] = .ok m' ∧ m'.wf ∧ m'.read a = v ∧ ∀ b, b ≠ a → m'.read b = m.read b)

/-- R50: a word stored by a block store is what a later fetch at its address gives, with no fence or delay. -/
def Obligations.StoredWordIsFetched : Prop :=
  ∀ (s t u : State) (x : Reg), s.mem.wf → 1 ≤ x.val → s.index.toNat + x.val < 4096 →
    exec (.ldMemVx x) s = .next t → u.mem = t.mem → u.pc = s.index →
    u.fetch = .ok (s.reg 0 ++ s.reg 1)

/-! ## Control flow -/

/-- R82, R83 (register of the offset by decision D3): both jumps complete, set `pc` and change nothing else. -/
def Obligations.JumpsSetPc : Prop :=
  ∀ (nnn : Addr) (s : State),
    (∃ t, exec (.jp nnn) s = .next t ∧ t.pc.toNat = nnn.toNat ∧ t = { s with pc := t.pc }) ∧
      (∃ t, exec (.jpOff nnn) s = .next t ∧
        (s.q.jump = false → t.pc.toNat = nnn.toNat + (s.reg 0).toNat) ∧
        (s.q.jump = true → ∀ x : Reg, x.val = nnn.toNat / 256 → t.pc.toNat = nnn.toNat + (s.reg x).toNat) ∧
        t = { s with pc := t.pc })

/-- R81 (slot by decision D19): CALL pushes the advanced `pc` and jumps; with 16 pending calls it stops. -/
def Obligations.CallPushesAndJumps : Prop :=
  ∀ (nnn : Addr) (s : State),
    (s.sp.val < 16 →
      ∃ t, exec (.call nnn) s = .next t ∧ t.pc.toNat = nnn.toNat ∧ t.sp.val = s.sp.val + 1 ∧
        (∀ k (h : k < 16), t.stack[k] = if k = s.sp.val then s.pc else s.stack[k]) ∧
        t = { s with pc := t.pc, sp := t.sp, stack := t.stack }) ∧
      (s.sp.val = 16 → stopsWith .stackOverflow (exec (.call nnn) s))

/-- R80 (slot by decision D19, log 29): RET pops the last entry into `pc`, the entry stays in the stack; with no pending call
it stops. -/
def Obligations.ReturnPopsIntoPc : Prop :=
  ∀ s : State,
    (∀ (k : Nat) (h : k < 16), s.sp.val = k + 1 →
      ∃ t, exec .ret s = .next t ∧ t.pc = s.stack[k] ∧ t.sp.val = k ∧ t = { s with pc := t.pc, sp := t.sp }) ∧
      (s.sp.val = 0 → stopsWith .stackUnderflow (exec .ret s))

/-- 95_test_vectors S6: after a CALL from any depth below 16, a RET that finds the call stack as the CALL left it restores the
`pc` and the depth from before the CALL. -/
def Obligations.CallThenReturnRestores : Prop :=
  ∀ (nnn : Addr) (s t u : State), s.sp.val < 16 → exec (.call nnn) s = .next t → u.sp = t.sp → u.stack = t.stack →
    ∃ r, exec .ret u = .next r ∧ r.pc = s.pc ∧ r.sp = s.sp

/-- R84, R85: the two skips on an immediate add 2 to `pc` when their condition holds and change nothing else. -/
def Obligations.SkipsOnImmediate : Prop :=
  ∀ (x : Reg) (kk : Byte) (s : State),
    (∃ t, exec (.seImm x kk) s = .next t ∧ t = { s with pc := t.pc } ∧
      t.pc.toNat = if s.reg x = kk then (s.pc.toNat + 2) % 65536 else s.pc.toNat) ∧
      (∃ t, exec (.sneImm x kk) s = .next t ∧ t = { s with pc := t.pc } ∧
        t.pc.toNat = if s.reg x = kk then s.pc.toNat else (s.pc.toNat + 2) % 65536)

/-- R86, R87: the two skips on a register. -/
def Obligations.SkipsOnRegister : Prop :=
  ∀ (x y : Reg) (s : State),
    (∃ t, exec (.seReg x y) s = .next t ∧ t = { s with pc := t.pc } ∧
      t.pc.toNat = if s.reg x = s.reg y then (s.pc.toNat + 2) % 65536 else s.pc.toNat) ∧
      (∃ t, exec (.sneReg x y) s = .next t ∧ t = { s with pc := t.pc } ∧
        t.pc.toNat = if s.reg x = s.reg y then s.pc.toNat else (s.pc.toNat + 2) % 65536)

/-! ## 8-bit operations -/

/-- R100, R101: set and add immediate write their register alone, modulo 256, with no flag. -/
def Obligations.ImmediateSetAndAdd : Prop :=
  ∀ (x : Reg) (kk : Byte) (s : State),
    (∃ t, exec (.ldImm x kk) s = .next t ∧ t.reg x = kk ∧ (∀ r, r ≠ x → t.reg r = s.reg r) ∧ t = { s with v := t.v }) ∧
      (∃ t, exec (.addImm x kk) s = .next t ∧ (t.reg x).toNat = ((s.reg x).toNat + kk.toNat) % 256 ∧
        (∀ r, r ≠ x → t.reg r = s.reg r) ∧ t = { s with v := t.v })

/-- R102 (the instruction itself by decision D27): the register copy. -/
def Obligations.RegisterCopy : Prop :=
  ∀ (x y : Reg) (s : State),
    ∃ t, exec (.ldReg x y) s = .next t ∧ t.reg x = s.reg y ∧ (∀ r, r ≠ x → t.reg r = s.reg r) ∧ t = { s with v := t.v }

/-- R103, R104, R105 (that the cleared `VF` wins over a result written to it by decision D2, log 19): the logical operations;
`VF` is cleared only under `vfReset`. -/
def Obligations.LogicAndItsFlag : Prop :=
  ∀ (x y : Reg) (s : State) (i : Instr) (b : Byte),
    (i = .orReg x y ∧ b = s.reg x ||| s.reg y) ∨ (i = .andReg x y ∧ b = s.reg x &&& s.reg y) ∨
        (i = .xorReg x y ∧ b = s.reg x ^^^ s.reg y) →
    ∃ t, exec i s = .next t ∧ (s.q.vfReset = true → t.reg vF = 0) ∧
      (s.q.vfReset = false ∨ x ≠ vF → t.reg x = b) ∧
      (∀ r, r ≠ x → (s.q.vfReset = false ∨ r ≠ vF) → t.reg r = s.reg r) ∧ t = { s with v := t.v }

/-- R106 (that the carry wins in `VF` by decision D2, log 19): the sum modulo 256 and the carry. -/
def Obligations.AddAndCarry : Prop :=
  ∀ (x y : Reg) (s : State),
    ∃ t, exec (.addReg x y) s = .next t ∧
      (x ≠ vF → (t.reg x).toNat = ((s.reg x).toNat + (s.reg y).toNat) % 256) ∧
      (t.reg vF).toNat = (if 255 < (s.reg x).toNat + (s.reg y).toNat then 1 else 0) ∧
      (∀ r, r ≠ x → r ≠ vF → t.reg r = s.reg r) ∧ t = { s with v := t.v }

/-- R107, R109 (which operand is the minuend by decision D35, log 39; that the flag wins in `VF` by decision D2, log 19): the
difference modulo 256 and the not-borrow. -/
def Obligations.SubtractAndNotBorrow : Prop :=
  ∀ (x y : Reg) (s : State) (i : Instr) (a b : Nat),
    (i = .subReg x y ∧ a = (s.reg x).toNat ∧ b = (s.reg y).toNat) ∨
        (i = .subn x y ∧ a = (s.reg y).toNat ∧ b = (s.reg x).toNat) →
    ∃ t, exec i s = .next t ∧ (x ≠ vF → (t.reg x).toNat = if b ≤ a then a - b else a + 256 - b) ∧
      (t.reg vF).toNat = (if b ≤ a then 1 else 0) ∧
      (∀ r, r ≠ x → r ≠ vF → t.reg r = s.reg r) ∧ t = { s with v := t.v }

/-- R108, R110 (that the bit moved out wins in `VF` by decision D2, log 19): shifts by one position of `V[x]` under the `shift`
quirk, else of `V[y]`, and the bit moved out. -/
def Obligations.ShiftsAndTheBitMovedOut : Prop :=
  ∀ (x y : Reg) (s : State) (n : Nat), n = (if s.q.shift = true then s.reg x else s.reg y).toNat →
    (∃ t, exec (.shr x y) s = .next t ∧ (x ≠ vF → (t.reg x).toNat = n / 2) ∧ (t.reg vF).toNat = n % 2 ∧
      (∀ r, r ≠ x → r ≠ vF → t.reg r = s.reg r) ∧ t = { s with v := t.v }) ∧
      (∃ t, exec (.shl x y) s = .next t ∧ (x ≠ vF → (t.reg x).toNat = 2 * n % 256) ∧ (t.reg vF).toNat = n / 128 ∧
        (∀ r, r ≠ x → r ≠ vF → t.reg r = s.reg r) ∧ t = { s with v := t.v })

/-- R111 (`rnd` free by decision D21): the drawn byte masked, whatever byte was drawn, never above the mask. -/
def Obligations.RandomByteMasked : Prop :=
  ∀ (x : Reg) (kk : Byte) (s : State),
    ∃ t, exec (.rnd x kk) s = .next t ∧ t.reg x = s.rnd &&& kk ∧ (t.reg x).toNat ≤ kk.toNat ∧
      (∀ r, r ≠ x → t.reg r = s.reg r) ∧ t = { s with v := t.v }

/-! ## Display -/

/-- R120: CLS clears the whole grid in either mode and sets `dirty`. -/
def Obligations.ClearScreen : Prop :=
  ∀ s : State, ∃ t, exec .cls s = .next t ∧ (∀ r c, cell t.fb r c = false) ∧ t.dirty = true ∧
    t = { s with fb := t.fb, dirty := t.dirty }

/-- R125, R126 (which opcode is which mode by decision D36): the switch sets the mode, clears the grid, sets `dirty`. -/
def Obligations.ResolutionSwitch : Prop :=
  ∀ (s : State) (i : Instr) (b : Bool), (i = .low ∧ b = false) ∨ (i = .high ∧ b = true) →
    ∃ t, exec i s = .next t ∧ t.ext = b ∧ t.width = (if b then 128 else 64) ∧ t.height = (if b then 64 else 32) ∧
      (∀ r c, cell t.fb r c = false) ∧ t.dirty = true ∧ t = { s with ext := t.ext, fb := t.fb, dirty := t.dirty }

/-- R121 (decisions D4, D11, D12, D13, D26, D31): with its bytes in memory a draw completes; it flips exactly the cells a
1-pixel lands on; `VF` is 1 iff one of them was set; `dirty` is set; nothing else changes. -/
def Obligations.DrawFlipsItsCells : Prop :=
  ∀ (x y : Reg) (n : Nat) (s : State), n ≤ 15 → drawBytes s n = 0 ∨ s.index.toNat + drawBytes s n ≤ 4096 →
    ∃ t, exec (.drw x y n) s = .next t ∧
      (∀ r c, (drawnOn s x y n r c → cell t.fb r c = !cell s.fb r c) ∧
        (¬ drawnOn s x y n r c → cell t.fb r c = cell s.fb r c)) ∧
      ((∃ r c, drawnOn s x y n r c ∧ cell s.fb r c = true) → t.reg vF = 1) ∧
      ((∀ r c, drawnOn s x y n r c → cell s.fb r c = false) → t.reg vF = 0) ∧
      (∀ r, r ≠ vF → t.reg r = s.reg r) ∧ t.dirty = true ∧
      t = { s with v := t.v, fb := t.fb, dirty := t.dirty }

/-- R128: the same draw twice restores every cell, and the second reports a collision exactly when some 1-pixel landed on a
cell that was clear before the first. -/
def Obligations.DrawTwiceRestores : Prop :=
  ∀ (x y : Reg) (n : Nat) (s : State), n ≤ 15 → x ≠ vF → y ≠ vF →
    drawBytes s n = 0 ∨ s.index.toNat + drawBytes s n ≤ 4096 →
    ∃ t u, exec (.drw x y n) s = .next t ∧ exec (.drw x y n) t = .next u ∧ u.fb = s.fb ∧
      (u.reg vF = 1 ↔ ∃ r c, drawnOn s x y n r c ∧ cell s.fb r c = false)

/-- R122, R123, R124, R127 (standard mode by decision D10, all three settings): each cell of the region takes the cell the
scroll moves onto it, or 0; outside the region, and where the scroll is disabled, every cell stays. -/
def Obligations.ScrollsMoveTheRegion : Prop :=
  ∀ (s : State) (i : Instr) (dr : Nat) (dc : Int),
    (∃ n, n ≤ 15 ∧ i = .scd n ∧ dr = n ∧ dc = 0) ∨ (i = .scr ∧ dr = 0 ∧ dc = 4) ∨ (i = .scl ∧ dr = 0 ∧ dc = -4) →
    ∃ t, exec i s = .next t ∧ t = { s with fb := t.fb, dirty := t.dirty } ∧
      (s.ext = false → s.scrollStd = .noop → t = s) ∧
      ∀ rh rw : Nat,
        (s.ext = true ∧ rh = 64 ∧ rw = 128) ∨ (s.ext = false ∧ s.scrollStd = .logical ∧ rh = 32 ∧ rw = 64) ∨
            (s.ext = false ∧ s.scrollStd = .full ∧ rh = 64 ∧ rw = 128) →
        t.dirty = true ∧
          ∀ r c : Nat, r < 64 → c < 128 →
            (¬ (r < rh ∧ c < rw) → cell t.fb r c = cell s.fb r c) ∧
              (r < rh ∧ c < rw →
                (∀ r' c' : Nat, r' + dr = r → (c' : Int) + dc = c → c' < rw → cell t.fb r c = cell s.fb r' c') ∧
                  ((∀ r' c' : Nat, ¬ (r' + dr = r ∧ (c' : Int) + dc = c ∧ c' < rw)) → cell t.fb r c = false))

/-! ## Halt, keypad, timers -/

/-- R140: EXIT sets `halted` and changes nothing else, `pc` staying past the EXIT. -/
def Obligations.ExitHalts : Prop :=
  ∀ s : State, ∃ t, exec .exit s = .next t ∧ t.halted = true ∧ t = { s with halted := t.halted }

/-- R141, R142 (which opcode is which by D36, the stop by D6): the key skips on this Cycle's sample, or KeyIndex. -/
def Obligations.KeySkips : Prop :=
  ∀ (x : Reg) (s : State),
    (∀ (k : Nat) (h : k < 16), (s.reg x).toNat = k →
      (∃ t, exec (.skp x) s = .next t ∧ t = { s with pc := t.pc } ∧
        t.pc.toNat = if s.key[k] = true then (s.pc.toNat + 2) % 65536 else s.pc.toNat) ∧
        (∃ t, exec (.sknp x) s = .next t ∧ t = { s with pc := t.pc } ∧
          t.pc.toNat = if s.key[k] = true then s.pc.toNat else (s.pc.toNat + 2) % 65536)) ∧
      (16 ≤ (s.reg x).toNat → stopsWith .keyIndex (exec (.skp x) s) ∧ stopsWith .keyIndex (exec (.sknp x) s))

/-- R143 (ascending order by decision D14): wait-for-key stores the lowest key with the edge the `press` quirk asks for; with
no edge `pc` goes back by 2 and nothing else changes. -/
def Obligations.WaitForKey : Prop :=
  ∀ (x : Reg) (s : State) (before : Bool), before = (!s.q.press) →
    (∀ (k : Nat) (h : k < 16), s.prev[k] = before → s.key[k] = !before →
      (∀ (j : Nat) (hj : j < k), ¬ (s.prev[j] = before ∧ s.key[j] = !before)) →
      ∃ t, exec (.ldVxK x) s = .next t ∧ (t.reg x).toNat = k ∧ (∀ r, r ≠ x → t.reg r = s.reg r) ∧
        t = { s with v := t.v }) ∧
      ((∀ (k : Nat) (h : k < 16), ¬ (s.prev[k] = before ∧ s.key[k] = !before)) →
        ∃ t, exec (.ldVxK x) s = .next t ∧ (t.pc.toNat + 2) % 65536 = s.pc.toNat ∧ t = { s with pc := t.pc })

/-- R144, R145, R146: the timer moves. -/
def Obligations.TimerMoves : Prop :=
  ∀ (x : Reg) (s : State),
    (∃ t, exec (.ldVxDt x) s = .next t ∧ t.reg x = s.dt ∧ (∀ r, r ≠ x → t.reg r = s.reg r) ∧ t = { s with v := t.v }) ∧
      (∃ t, exec (.ldDtVx x) s = .next t ∧ t.dt = s.reg x ∧ t = { s with dt := t.dt }) ∧
      (∃ t, exec (.ldStVx x) s = .next t ∧ t.st = s.reg x ∧ (tone t = true ↔ s.reg x ≠ 0) ∧ t = { s with st := t.st })

/-! ## Index register and transfers -/

/-- R160 (decision D27), R161 (wrap by decision D18): `I` set from 12 bits, and the 16-bit add with no flag. -/
def Obligations.IndexSetAndAdd : Prop :=
  ∀ (nnn : Addr) (x : Reg) (s : State),
    (∃ t, exec (.ldI nnn) s = .next t ∧ t.index.toNat = nnn.toNat ∧ t = { s with index := t.index }) ∧
      (∃ t, exec (.addIVx x) s = .next t ∧ t.index.toNat = (s.index.toNat + (s.reg x).toNat) % 65536 ∧
        t = { s with index := t.index })

/-- R162, R163: the small pointer unmasked, the big one masked to four bits. -/
def Obligations.FontPointers : Prop :=
  ∀ (x : Reg) (s : State),
    (∃ t, exec (.ldFVx x) s = .next t ∧ t.index.toNat = 0x50 + 5 * (s.reg x).toNat ∧ t = { s with index := t.index }) ∧
      (∃ t, exec (.ldHfVx x) s = .next t ∧ t.index.toNat = 0x100 + 10 * ((s.reg x).toNat % 16) ∧
        t = { s with index := t.index })

/-- R164: the three digits at `I`, every other byte as before, `I` kept; out of range it stops. -/
def Obligations.BcdStoresThreeDigits : Prop :=
  ∀ (x : Reg) (s : State), s.mem.wf →
    (s.index.toNat + 2 < 4096 →
      ∃ t, exec (.ldBVx x) s = .next t ∧
        (t.mem.read s.index.toNat).toNat = (s.reg x).toNat / 100 ∧
        (t.mem.read (s.index.toNat + 1)).toNat = (s.reg x).toNat / 10 % 10 ∧
        (t.mem.read (s.index.toNat + 2)).toNat = (s.reg x).toNat % 10 ∧
        sameMemoryOutside s.index.toNat 3 s t ∧ t = { s with mem := t.mem }) ∧
      (4096 ≤ s.index.toNat + 2 → stopsWith .addressRange (exec (.ldBVx x) s))

/-- R165 (the index update by decision D28): `V0` to `Vx` at `I` upward, every other byte as before, `I` advanced by `x + 1`
under the `memory` quirk; out of range it stops. -/
def Obligations.BlockStore : Prop :=
  ∀ (x : Reg) (s : State), s.mem.wf →
    (s.index.toNat + x.val < 4096 →
      ∃ t, exec (.ldMemVx x) s = .next t ∧
        (∀ r : Reg, r.val ≤ x.val → t.mem.read (s.index.toNat + r.val) = s.reg r) ∧
        sameMemoryOutside s.index.toNat (x.val + 1) s t ∧
        t.index.toNat = (if s.q.memory then (s.index.toNat + x.val + 1) % 65536 else s.index.toNat) ∧
        t = { s with mem := t.mem, index := t.index }) ∧
      (4096 ≤ s.index.toNat + x.val → stopsWith .addressRange (exec (.ldMemVx x) s))

/-- R166 (the index update by decision D28): `V0` to `Vx` from `I` upward, the other registers and memory as before; out of
range it stops. -/
def Obligations.BlockLoad : Prop :=
  ∀ (x : Reg) (s : State),
    (s.index.toNat + x.val < 4096 →
      ∃ t, exec (.ldVxMem x) s = .next t ∧
        (∀ r : Reg, r.val ≤ x.val → t.reg r = s.mem.read (s.index.toNat + r.val)) ∧
        (∀ r : Reg, x.val < r.val → t.reg r = s.reg r) ∧
        t.index.toNat = (if s.q.memory then (s.index.toNat + x.val + 1) % 65536 else s.index.toNat) ∧
        t = { s with v := t.v, index := t.index }) ∧
      (4096 ≤ s.index.toNat + x.val → stopsWith .addressRange (exec (.ldVxMem x) s))

/-- R167, R168: at most eight registers to and from the RPL file, everything else as before. -/
def Obligations.RplTransfers : Prop :=
  ∀ (x : Reg) (s : State),
    (∃ t, exec (.ldRVx x) s = .next t ∧
      (∀ (k : Nat) (h : k < 8), t.rpl[k] = if k ≤ x.val then s.reg ⟨k, by omega⟩ else s.rpl[k]) ∧
      t = { s with rpl := t.rpl }) ∧
      (∃ t, exec (.ldVxR x) s = .next t ∧
        (∀ (k : Nat) (h : k < 8), t.reg ⟨k, by omega⟩ = if k ≤ x.val then s.rpl[k] else s.reg ⟨k, by omega⟩) ∧
        (∀ r : Reg, 8 ≤ r.val → t.reg r = s.reg r) ∧ t = { s with v := t.v })

/-! ## The whole machine -/

/-- R181, R184, R187 (the undefined stops by decisions D5, D6): every instruction answers a next state in every state, with the
stop latch as it was unless the instruction meets its one listed condition, which then is the cause. -/
def Obligations.InstructionsStopExactlyWhereListed : Prop :=
  ∀ (i : Instr) (s : State), i.wf = true →
    ∃ t, exec i s = .next t ∧ t.stop = (match stopOf i s with | some c => some c | none => s.stop)

/-- R11: an instruction that is not in the table and does not name `VF` as a destination leaves `VF` alone. -/
def Obligations.OthersLeaveFlagAlone : Prop :=
  ∀ (i : Instr) (s t : State), exec i s = .next t → stopOf i s = none → ¬ writesFlag s.q i → t.reg vF = s.reg vF

/-- R14, R15: only CALL and RET move the stack pointer, only CALL writes the call stack. -/
def Obligations.CallStackHasItsWriters : Prop :=
  ∀ (i : Instr) (s t : State), exec i s = .next t → stopOf i s = none →
    ((∀ nnn, i ≠ .call nnn) → t.stack = s.stack) ∧ ((∀ nnn, i ≠ .call nnn) → i ≠ .ret → t.sp = s.sp)

/-- R22, R23: no instruction but the two timer loads changes a timer, and each changes its own. -/
def Obligations.TimersHaveTheirWriters : Prop :=
  ∀ (i : Instr) (s t : State), exec i s = .next t → stopOf i s = none →
    ((∀ x, i ≠ .ldDtVx x) → t.dt = s.dt) ∧ ((∀ x, i ≠ .ldStVx x) → t.st = s.st)

/-- R16, R17, R18, R19, R26, R40: memory, RPL file, framebuffer, mode, dirty and halted flag each change only by the
instructions the rules name, and no instruction clears `dirty` or `halted`. -/
def Obligations.PlacesHaveTheirWriters : Prop :=
  ∀ (i : Instr) (s t : State), exec i s = .next t → stopOf i s = none →
    ((∀ x, i ≠ .ldBVx x) → (∀ x, i ≠ .ldMemVx x) → sameMemory s t ∧ t.mem = s.mem) ∧
      ((∀ x, i ≠ .ldRVx x) → t.rpl = s.rpl) ∧
      (¬ isDisplay i → t.fb = s.fb ∧ t.dirty = s.dirty) ∧
      (i ≠ .low → i ≠ .high → t.ext = s.ext) ∧
      (i ≠ .exit → t.halted = s.halted) ∧
      (s.dirty = true → t.dirty = true) ∧ (s.halted = true → t.halted = true)

/-- R24, R30: among the instructions the drawn byte reaches RND alone and the keypad sample the three key instructions alone
(the Cycle's snapshot, no instruction, reads the sample too): any other instruction
does the same whatever they are. Of a stopped machine it says nothing (R188). -/
def Obligations.InputsReachOnlyTheirReaders : Prop :=
  ∀ (i : Instr) (s t : State), exec i s = .next t → stopOf i s = none →
    (∀ b : Byte, (∀ x kk, i ≠ .rnd x kk) → exec i { s with rnd := b } = .next { t with rnd := b }) ∧
      (∀ k : Keys, ¬ readsKeypad i → exec i { s with key := k } = .next { t with key := k })

/-- R26, R189, R196: nothing but reset leaves a halt: a step from a halted state that is a transition stays halted, with no stop,
and changes nothing but the timers and `dirty` (Tick, ClearDirty), the host's script and the count of draws. -/
def Obligations.HaltIsPermanent : Prop :=
  ∀ s t : State, s.halted = true → step s = .next t →
    t.halted = true ∧ t.stop = none ∧
      t = { s with dt := t.dt, st := t.st, dirty := t.dirty, script := t.script, draws := t.draws }

/-- R28, R127: no step writes the quirk configuration or the scroll setting. -/
def Obligations.ParametersAreConstant : Prop :=
  ∀ s t : State, step s = .next t → t.q = s.q ∧ t.scrollStd = s.scrollStd

/-- R25: a completed Cycle leaves its own keypad sample in `prev`, and no other operation writes `prev`. -/
def Obligations.SnapshotIsTheCyclesSample : Prop :=
  ∀ s t : State, step s = .next t → t.stop = none →
    (∀ key rnd u, s.takeOp = (.cycle key rnd, u) → t.prev = key) ∧
      ((∀ key rnd u, s.takeOp ≠ (.cycle key rnd, u)) → t.prev = s.prev)

/-- R31, R32, R33: what the host's queries answer. -/
def Obligations.QueriesReadTheState : Prop :=
  ∀ s : State,
    framebufferQuery s =
        { fb := s.fb, width := if s.ext then 128 else 64, height := if s.ext then 64 else 32, dirty := s.dirty } ∧
      (tone s = true ↔ s.st.toNat ≠ 0) ∧ (haltedQuery s = true ↔ s.halted = true)

/-- R185 (decision D25): the codes of the stop output. -/
def Obligations.StopCodes : Prop :=
  ∀ s : State,
    (s.stop = none → stopCode s = 0) ∧ (s.stop = some .stackOverflow → stopCode s = 1) ∧
      (s.stop = some .stackUnderflow → stopCode s = 2) ∧ (s.stop = some .addressRange → stopCode s = 3) ∧
      (s.stop = some .keyIndex → stopCode s = 4)
end

