-- ==== Sys2Proof/Laws/Decode.lean ====
section
/-!
SUPPORT. The decoder by nibbles: a word is its four nibbles, a mask of a dispatch table compares nibble by nibble, and
dispatch through the three tables is a nested choice on nibbles. Proofs about decoding cite `dispatch_nibbles` and the
field lemmas and never unfold the tables.
-/

namespace Sys2Proof.Laws

/-- The word with these nibbles, most significant first. -/
def nibbles (a b c d : BitVec 4) : Word := a ++ b ++ c ++ d

/-- Bit `i` of a nibble of a word of nibbles. -/
theorem nibbles_getLsbD (a b c d : BitVec 4) (i : Nat) (h : i < 4) :
    (nibbles a b c d).getLsbD i = d.getLsbD i ∧ (nibbles a b c d).getLsbD (4 + i) = c.getLsbD i ∧
      (nibbles a b c d).getLsbD (8 + i) = b.getLsbD i ∧ (nibbles a b c d).getLsbD (12 + i) = a.getLsbD i := by
  refine ⟨?_, ?_, ?_, ?_⟩ <;> simp only [nibbles, BitVec.getLsbD_append] <;> interval_cases i <;> simp

@[simp] theorem nibbles_extract_12 (a b c d : BitVec 4) : (nibbles a b c d).extractLsb' 12 4 = a := by
  refine BitVec.eq_of_getLsbD_eq fun i hi => ?_
  simp [hi, nibbles_getLsbD a b c d i hi]

@[simp] theorem nibbles_extract_8 (a b c d : BitVec 4) : (nibbles a b c d).extractLsb' 8 4 = b := by
  refine BitVec.eq_of_getLsbD_eq fun i hi => ?_
  simp [hi, nibbles_getLsbD a b c d i hi]

@[simp] theorem nibbles_extract_4 (a b c d : BitVec 4) : (nibbles a b c d).extractLsb' 4 4 = c := by
  refine BitVec.eq_of_getLsbD_eq fun i hi => ?_
  simp [hi, nibbles_getLsbD a b c d i hi]

@[simp] theorem nibbles_extract_0 (a b c d : BitVec 4) : (nibbles a b c d).extractLsb' 0 4 = d := by
  refine BitVec.eq_of_getLsbD_eq fun i hi => ?_
  simp [hi, nibbles_getLsbD a b c d i hi]

/-- Two words are equal when their nibbles are. -/
theorem word_ext {v w : Word} (h3 : v.extractLsb' 12 4 = w.extractLsb' 12 4) (h2 : v.extractLsb' 8 4 = w.extractLsb' 8 4)
    (h1 : v.extractLsb' 4 4 = w.extractLsb' 4 4) (h0 : v.extractLsb' 0 4 = w.extractLsb' 0 4) : v = w := by
  refine BitVec.eq_of_getLsbD_eq fun i hi => ?_
  have bit : ∀ (n j : Nat), j < 4 → v.extractLsb' n 4 = w.extractLsb' n 4 → v.getLsbD (n + j) = w.getLsbD (n + j) := by
    intro n j hj h
    have := congrArg (fun b => b.getLsbD j) h
    simpa [BitVec.getLsbD_extractLsb', hj] using this
  by_cases a3 : 12 ≤ i
  · simpa [Nat.add_sub_cancel' a3] using bit 12 (i - 12) (by omega) h3
  by_cases a2 : 8 ≤ i
  · simpa [Nat.add_sub_cancel' a2] using bit 8 (i - 8) (by omega) h2
  by_cases a1 : 4 ≤ i
  · simpa [Nat.add_sub_cancel' a1] using bit 4 (i - 4) (by omega) h1
  · simpa using bit 0 i (by omega) h0

/-- Every word is its nibbles. -/
theorem nibbles_of_word (w : Word) :
    nibbles (w.extractLsb' 12 4) (w.extractLsb' 8 4) (w.extractLsb' 4 4) (w.extractLsb' 0 4) = w := by
  apply word_ext <;> simp

/-- A masked comparison is four masked comparisons of nibbles (R68). -/
theorem nibbles_masked (a b c d : BitVec 4) (m e : Word) :
    (nibbles a b c d &&& m == e) =
      (decide (a &&& m.extractLsb' 12 4 = e.extractLsb' 12 4) && decide (b &&& m.extractLsb' 8 4 = e.extractLsb' 8 4) &&
        decide (c &&& m.extractLsb' 4 4 = e.extractLsb' 4 4) && decide (d &&& m.extractLsb' 0 4 = e.extractLsb' 0 4)) := by
  have hand : ∀ n, (nibbles a b c d &&& m).extractLsb' n 4 = (nibbles a b c d).extractLsb' n 4 &&& m.extractLsb' n 4 := by
    intro n; ext i hi; simp
  rw [Bool.eq_iff_iff]
  simp only [beq_iff_eq, Bool.and_eq_true, decide_eq_true_eq]
  constructor
  · intro h
    have h3 := hand 12; have h2 := hand 8; have h1 := hand 4; have h0 := hand 0
    rw [h] at h3 h2 h1 h0
    simp only [nibbles_extract_12, nibbles_extract_8, nibbles_extract_4, nibbles_extract_0] at h3 h2 h1 h0
    exact ⟨⟨⟨h3.symm, h2.symm⟩, h1.symm⟩, h0.symm⟩
  · rintro ⟨⟨⟨h3, h2⟩, h1⟩, h0⟩
    apply word_ext <;> rw [hand] <;> simpa

@[simp] theorem and_fifteen (a : BitVec 4) : a &&& 15#4 = a := by revert a; decide

/-! ## The fields of a word of nibbles -/

@[simp] theorem nibbleAt_nibbles_0 (a b c d : BitVec 4) : nibbleAt (nibbles a b c d) 0 = d.toFin := by simp [nibbleAt]
@[simp] theorem nibbleAt_nibbles_4 (a b c d : BitVec 4) : nibbleAt (nibbles a b c d) 4 = c.toFin := by simp [nibbleAt]
@[simp] theorem nibbleAt_nibbles_8 (a b c d : BitVec 4) : nibbleAt (nibbles a b c d) 8 = b.toFin := by simp [nibbleAt]

theorem fields_nibbles (a b c d : BitVec 4) :
    fields (nibbles a b c d) =
      { raw := nibbles a b c d, nnn := b ++ c ++ d, kk := c ++ d, n := d.toNat, x := b.toFin, y := c.toFin } := by
  have hn : (nibbles a b c d).extractLsb' 0 12 = b ++ c ++ d := by
    refine BitVec.eq_of_getLsbD_eq fun i hi => ?_
    simp only [nibbles, BitVec.getLsbD_extractLsb', BitVec.getLsbD_append]
    interval_cases i <;> simp
  have hk : (nibbles a b c d).extractLsb' 0 8 = c ++ d := by
    refine BitVec.eq_of_getLsbD_eq fun i hi => ?_
    simp only [nibbles, BitVec.getLsbD_extractLsb', BitVec.getLsbD_append]
    interval_cases i <;> simp
  simp [fields, hn, hk]

/-! ## Dispatch by nibbles -/

/-- Class 0 by its other nibbles (R64 entries 1 to 8). -/
def zeroClass (b c d : BitVec 4) : Option Instr :=
  if b = 0 ∧ c = 0xE ∧ d = 0 then some .cls
  else if b = 0 ∧ c = 0xE ∧ d = 0xE then some .ret
  else if b = 0 ∧ c = 0xF ∧ d = 0xB then some .scr
  else if b = 0 ∧ c = 0xF ∧ d = 0xC then some .scl
  else if b = 0 ∧ c = 0xF ∧ d = 0xD then some .exit
  else if b = 0 ∧ c = 0xF ∧ d = 0xE then some .low
  else if b = 0 ∧ c = 0xF ∧ d = 0xF then some .high
  else if b = 0 ∧ c = 0xC then some (.scd d.toNat)
  else none

/-- Class 8 by its low nibble (R65). -/
def eightClass (b c d : BitVec 4) : Option Instr :=
  if d = 0 then some (.ldReg b.toFin c.toFin)
  else if d = 1 then some (.orReg b.toFin c.toFin)
  else if d = 2 then some (.andReg b.toFin c.toFin)
  else if d = 3 then some (.xorReg b.toFin c.toFin)
  else if d = 4 then some (.addReg b.toFin c.toFin)
  else if d = 5 then some (.subReg b.toFin c.toFin)
  else if d = 6 then some (.shr b.toFin c.toFin)
  else if d = 7 then some (.subn b.toFin c.toFin)
  else if d = 0xE then some (.shl b.toFin c.toFin)
  else none

/-- Class F by its low byte (R66). -/
def fifteenClass (b c d : BitVec 4) : Option Instr :=
  if c = 0 ∧ d = 7 then some (.ldVxDt b.toFin)
  else if c = 0 ∧ d = 0xA then some (.ldVxK b.toFin)
  else if c = 1 ∧ d = 5 then some (.ldDtVx b.toFin)
  else if c = 1 ∧ d = 8 then some (.ldStVx b.toFin)
  else if c = 1 ∧ d = 0xE then some (.addIVx b.toFin)
  else if c = 2 ∧ d = 9 then some (.ldFVx b.toFin)
  else if c = 3 ∧ d = 0 then some (.ldHfVx b.toFin)
  else if c = 3 ∧ d = 3 then some (.ldBVx b.toFin)
  else if c = 5 ∧ d = 5 then some (.ldMemVx b.toFin)
  else if c = 6 ∧ d = 5 then some (.ldVxMem b.toFin)
  else if c = 7 ∧ d = 5 then some (.ldRVx b.toFin)
  else if c = 8 ∧ d = 5 then some (.ldVxR b.toFin)
  else none

/-- Dispatch as a choice on the class nibble. -/
def byClass (a b c d : BitVec 4) : Option Instr :=
  if a = 0 then zeroClass b c d
  else if a = 1 then some (.jp (b ++ c ++ d))
  else if a = 2 then some (.call (b ++ c ++ d))
  else if a = 3 then some (.seImm b.toFin (c ++ d))
  else if a = 4 then some (.sneImm b.toFin (c ++ d))
  else if a = 5 then (if d = 0 then some (.seReg b.toFin c.toFin) else none)
  else if a = 6 then some (.ldImm b.toFin (c ++ d))
  else if a = 7 then some (.addImm b.toFin (c ++ d))
  else if a = 8 then eightClass b c d
  else if a = 9 then (if d = 0 then some (.sneReg b.toFin c.toFin) else none)
  else if a = 0xA then some (.ldI (b ++ c ++ d))
  else if a = 0xB then some (.jpOff (b ++ c ++ d))
  else if a = 0xC then some (.rnd b.toFin (c ++ d))
  else if a = 0xD then some (.drw b.toFin c.toFin d.toNat)
  else if a = 0xE then
    (if c = 9 ∧ d = 0xE then some (.skp b.toFin) else if c = 0xA ∧ d = 1 then some (.sknp b.toFin) else none)
  else fifteenClass b c d

theorem firstMatch_cons (r : Row) (rows : List Row) (w : Word) :
    firstMatch (r :: rows) w = if r.hits w then some (r.build (fields w)) else firstMatch rows w := by
  cases h : r.hits w <;> simp [firstMatch, h]

theorem firstMatch_nil (w : Word) : firstMatch [] w = none := rfl

theorem topMatch_cons (r : TopRow) (rows : List TopRow) (w : Word) :
    topMatch (r :: rows) w = if r.hits w then r.target.run w else topMatch rows w := by
  cases h : r.hits w <;> simp [topMatch, h]

theorem topMatch_nil (w : Word) : topMatch [] w = none := rfl

theorem tableA_nibbles (a b c d : BitVec 4) : firstMatch tableA (nibbles a b c d) = eightClass b c d := by
  simp [tableA, firstMatch_cons, firstMatch_nil, Row.hits, nibbles_masked, fields_nibbles, eightClass]

theorem tableF_nibbles (a b c d : BitVec 4) : firstMatch tableF (nibbles a b c d) = fifteenClass b c d := by
  simp [tableF, firstMatch_cons, firstMatch_nil, Row.hits, nibbles_masked, fields_nibbles, fifteenClass]

/-- A property of nibbles holds if it holds of the sixteen. -/
theorem forall_nibble {P : BitVec 4 → Prop} (h : ∀ k : Fin 16, P (BitVec.ofFin k)) (d : BitVec 4) : P d := h d.toFin

/-- Dispatch through the nested tables is the nested choice on nibbles. -/
theorem dispatch_nibbles (a b c d : BitVec 4) : dispatch (nibbles a b c d) = byClass a b c d := by
  revert a
  apply forall_nibble
  intro k
  fin_cases k <;>
    simp [dispatch, topTable, topRowsZero, topRowsClasses, topMatch_cons, topMatch_nil, Target.run, TopRow.hits,
      nibbles_masked, byClass, zeroClass, tableA_nibbles, tableF_nibbles, fields_nibbles, and_assoc]

/-! ## The encoder's layouts as nibbles -/

theorem encXYN_nibbles (cls : BitVec 4) (x y : Reg) (n : BitVec 4) :
    encXYN cls x y n = nibbles cls (BitVec.ofFin x) (BitVec.ofFin y) n := rfl

theorem encXKK_nibbles (cls : BitVec 4) (x : Reg) (kk : Byte) :
    encXKK cls x kk = nibbles cls (BitVec.ofFin x) (kk.extractLsb' 4 4) (kk.extractLsb' 0 4) := by
  refine BitVec.eq_of_getLsbD_eq fun i hi => ?_
  simp only [encXKK, nibbles, BitVec.getLsbD_append, BitVec.getLsbD_extractLsb']
  interval_cases i <;> simp

theorem encNNN_nibbles (cls : BitVec 4) (nnn : Addr) :
    encNNN cls nnn = nibbles cls (nnn.extractLsb' 8 4) (nnn.extractLsb' 4 4) (nnn.extractLsb' 0 4) := by
  refine BitVec.eq_of_getLsbD_eq fun i hi => ?_
  simp only [encNNN, nibbles, BitVec.getLsbD_append, BitVec.getLsbD_extractLsb']
  interval_cases i <;> simp

theorem byte_of_nibbles (kk : Byte) : kk.extractLsb' 4 4 ++ kk.extractLsb' 0 4 = kk := by
  refine BitVec.eq_of_getLsbD_eq fun i hi => ?_
  simp only [BitVec.getLsbD_append, BitVec.getLsbD_extractLsb']
  interval_cases i <;> simp

theorem addr_of_nibbles (nnn : Addr) :
    nnn.extractLsb' 8 4 ++ nnn.extractLsb' 4 4 ++ nnn.extractLsb' 0 4 = nnn := by
  refine BitVec.eq_of_getLsbD_eq fun i hi => ?_
  simp only [BitVec.getLsbD_append, BitVec.getLsbD_extractLsb']
  interval_cases i <;> simp

end Sys2Proof.Laws
end

