-- ==== Sys2Proof/Laws/Display.lean ====
section
/-!
SUPPORT. Laws of the framebuffer operations: what each leaves in a cell, where a draw may write, and that its pixels land on
cells of their own (spec/42_display.md R120 to R127).
-/

namespace Sys2Proof.Laws

open Sys2Proof.Machine

/-- Outside the grid there is no cell. -/
theorem cell_outside (fb : Framebuffer) {r c : Nat} (h : ¬ (r < 64 ∧ c < 128)) : cell fb r c = false := by
  simp only [cell, h, dif_neg, not_false_eq_true]

@[simp] theorem cell_blank (r c : Nat) : cell blank r c = false := by
  unfold cell
  split <;> simp [blank]

theorem cell_ofCells (f : Nat → Nat → Bool) {r c : Nat} (hr : r < 64) (hc : c < 128) :
    cell (ofCells f) r c = f r c := by
  simp [cell, ofCells, hr, hc]

/-- A cell after one cell is flipped. -/
theorem cell_flipCell (fb : Framebuffer) {r c : Nat} (hr : r < 64) (hc : c < 128) (r' c' : Nat) :
    cell (flipCell fb r c) r' c' = if r' = r ∧ c' = c then !cell fb r c else cell fb r' c' := by
  by_cases h : r' < 64 ∧ c' < 128
  · obtain ⟨hr', hc'⟩ := h
    by_cases e : r = r'
    · subst e
      by_cases e' : c = c'
      · subst e'; simp [cell, flipCell, hr, hc]
      · simp [cell, flipCell, hr, hc, hc', e', Ne.symm e']
    · simp [cell, flipCell, hr, hc, hr', hc', e, Ne.symm e]
  · rw [cell_outside _ h, cell_outside _ h, if_neg]
    rintro ⟨rfl, rfl⟩
    exact h ⟨hr, hc⟩

/-- Two framebuffers with the same cells are equal. -/
theorem framebuffer_ext {a b : Framebuffer} (h : ∀ r c, r < 64 → c < 128 → cell a r c = cell b r c) : a = b := by
  refine Vector.ext fun r hr => Vector.ext fun c hc => ?_
  simpa [cell, hr, hc] using h r c hr hc

/-- The flips of a list of cells, and the collisions noted on the way. -/
theorem plot_foldl (fb : Framebuffer) (coll : Bool) (ps : List (Nat × Nat)) (hin : ∀ p ∈ ps, p.1 < 64 ∧ p.2 < 128)
    (hnd : ps.Nodup) :
    (∀ r c, cell (ps.foldl plot (fb, coll)).1 r c = (cell fb r c ^^ decide ((r, c) ∈ ps))) ∧
      (ps.foldl plot (fb, coll)).2 = (coll || ps.any fun p => cell fb p.1 p.2) := by
  induction ps generalizing fb coll with
  | nil => simp
  | cons p ps ih =>
    obtain ⟨pr, pc⟩ := p
    obtain ⟨hp, hps⟩ := List.nodup_cons.1 hnd
    obtain ⟨h1, h2⟩ := hin (pr, pc) (by simp)
    obtain ⟨ihc, iha⟩ := ih (flipCell fb pr pc) (coll || cell fb pr pc)
      (fun q hq => hin q (List.mem_cons_of_mem _ hq)) hps
    simp only [List.foldl_cons, plot]
    refine ⟨fun r c => ?_, ?_⟩
    · rw [ihc, cell_flipCell fb h1 h2]
      by_cases e : (r, c) = (pr, pc)
      · obtain ⟨rfl, rfl⟩ := Prod.mk.inj e
        simp [hp]
      · have e' : ¬ (r = pr ∧ c = pc) := fun ⟨a, b⟩ => e (by rw [a, b])
        simp [e', List.mem_cons]
    · rw [iha, List.any_cons, Bool.or_assoc]
      congr 2
      rw [Bool.eq_iff_iff, List.any_eq_true, List.any_eq_true]
      refine exists_congr fun q => and_congr_right fun hq => ?_
      rw [cell_flipCell fb h1 h2, if_neg]
      rintro ⟨rfl, rfl⟩
      exact hp hq

/-- Where a pixel lands is on the grid it is drawn on. -/
theorem landing_inside {clip : Bool} {w h y0 x0 : Nat} {p q : Nat × Nat} (hw : 0 < w) (hh : 0 < h)
    (e : landing clip w h y0 x0 p = some q) : q.1 < h ∧ q.2 < w := by
  unfold landing at e
  split at e
  · split at e
    · cases e
    · cases e; exact ⟨Nat.mod_lt _ hh, Nat.mod_lt _ hw⟩
  · cases e
    constructor <;> simp only <;> omega

theorem width_pos (s : State) : 0 < s.width ∧ s.width ≤ 128 := by
  unfold State.width; split <;> simp

theorem height_pos (s : State) : 0 < s.height ∧ s.height ≤ 64 := by
  unfold State.height; split <;> simp

/-- A draw flips cells of the visible grid only (R121, R20). -/
theorem targets_inside {s : State} {x y : Reg} {n : Nat} {bytes : List Byte} {p : Nat × Nat}
    (h : p ∈ s.targets x y n bytes) : p.1 < s.height ∧ p.2 < s.width := by
  obtain ⟨q, -, e⟩ := List.mem_filterMap.1 h
  exact landing_inside (width_pos s).1 (height_pos s).1 e

/-- A wrapped coordinate tells the offset, while the offset is below the size. -/
theorem wrap_inj {m o a b : Nat} (ha : a < m) (hb : b < m) (e : (o + a) % m = (o + b) % m) : a = b := by
  have := Nat.ModEq.add_left_cancel' o (show (o + a) ≡ (o + b) [MOD m] from e)
  rwa [Nat.ModEq, Nat.mod_eq_of_lt ha, Nat.mod_eq_of_lt hb] at this

/-- Two pixels of a sprite no larger than the grid never land on one cell. -/
theorem landing_inj {clip : Bool} {w h y0 x0 : Nat} {p q z : Nat × Nat} (_hy : y0 < h) (_hx : x0 < w)
    (hp : p.1 < h ∧ p.2 < w) (hq : q.1 < h ∧ q.2 < w)
    (ep : landing clip w h y0 x0 p = some z) (eq : landing clip w h y0 x0 q = some z) : p = q := by
  have key : ∀ r : Nat × Nat, landing clip w h y0 x0 r = some z → z = ((y0 + r.1) % h, (x0 + r.2) % w) := by
    intro r er
    unfold landing at er
    split at er
    · split at er
      · cases er
      · cases er; rfl
    · cases er
      rw [Nat.mod_eq_of_lt, Nat.mod_eq_of_lt] <;> omega
  have e := (key p ep).symm.trans (key q eq)
  obtain ⟨e1, e2⟩ := Prod.mk.inj e
  exact Prod.ext (wrap_inj hp.1 hq.1 e1) (wrap_inj hp.2 hq.2 e2)

/-- The 1-pixels of a sprite: inside its size, and each listed once. -/
theorem pixels_spec (g : Sprite) (bytes : List Byte) :
    (∀ p, p ∈ g.pixels bytes ↔ p.1 < g.rows ∧ p.2 < g.cols ∧ g.bit bytes p.1 p.2 = true) ∧ (g.pixels bytes).Nodup := by
  constructor
  · rintro ⟨r, c⟩
    simp [Sprite.pixels, and_assoc]
  · refine List.Nodup.filter _ (List.nodup_flatMap.2 ⟨fun r _ => ?_, ?_⟩)
    · exact List.Nodup.map (fun a b e => (Prod.mk.inj e).2) List.nodup_range
    · refine List.Pairwise.imp_of_mem ?_ List.nodup_range
      intro r r' _ _ hne p hp hp'
      obtain ⟨c, -, rfl⟩ := List.mem_map.1 hp
      obtain ⟨c', -, e⟩ := List.mem_map.1 hp'
      exact hne (Prod.mk.inj e).1.symm

theorem spriteOf_size (n : Nat) (ext : Bool) (h : n ≤ 15) :
    (spriteOf n ext).rows ≤ 16 ∧ (spriteOf n ext).cols ≤ 16 := by
  unfold spriteOf
  split
  · simp; omega
  · split <;> simp

/-- Two 1-pixels of one sprite never land on the same cell (R121). -/
theorem targets_nodup (s : State) (x y : Reg) (n : Nat) (bytes : List Byte) (h : n ≤ 15) :
    (s.targets x y n bytes).Nodup := by
  have hw := width_pos s
  have hh := height_pos s
  obtain ⟨hmem, hnd⟩ := pixels_spec (spriteOf n s.ext) bytes
  have hsz := spriteOf_size n s.ext h
  have big : 32 ≤ s.height ∧ 64 ≤ s.width := by
    constructor
    · unfold State.height; split <;> simp
    · unfold State.width; split <;> simp
  unfold State.targets
  rw [List.Nodup, List.pairwise_filterMap]
  refine List.Pairwise.imp_of_mem ?_ hnd
  intro p q hp hq hne z hz z' hz' e
  subst e
  have hp := (hmem p).1 hp
  have hq := (hmem q).1 hq
  exact hne (landing_inj (Nat.mod_lt _ hh.1) (Nat.mod_lt _ hw.1) ⟨by omega, by omega⟩ ⟨by omega, by omega⟩ hz hz')

/-- What a draw does to every cell, and when it reports a collision (R121). -/
theorem plotAll_targets (s : State) (x y : Reg) (n : Nat) (bytes : List Byte) (h : n ≤ 15) :
    (∀ r c, cell (plotAll s.fb (s.targets x y n bytes)).1 r c =
      (cell s.fb r c ^^ decide ((r, c) ∈ s.targets x y n bytes))) ∧
    (plotAll s.fb (s.targets x y n bytes)).2 = (s.targets x y n bytes).any fun p => cell s.fb p.1 p.2 := by
  have hw := width_pos s
  have hh := height_pos s
  have := plot_foldl s.fb false (s.targets x y n bytes)
    (fun p hp => by have := targets_inside hp; omega) (targets_nodup s x y n bytes h)
  simpa [plotAll] using this

/-- A cell outside the visible grid is not touched by a draw, whatever the height. -/
theorem plotAll_outside (s : State) (x y : Reg) (n : Nat) (bytes : List Byte) {r c : Nat}
    (h : s.height ≤ r ∨ s.width ≤ c) :
    cell (plotAll s.fb (s.targets x y n bytes)).1 r c = cell s.fb r c := by
  have hw := width_pos s
  have hh := height_pos s
  have main : ∀ (ps : List (Nat × Nat)) (acc : Framebuffer × Bool), (∀ p ∈ ps, p.1 < s.height ∧ p.2 < s.width) →
      cell (ps.foldl plot acc).1 r c = cell acc.1 r c := by
    intro ps
    induction ps with
    | nil => intro acc _; rfl
    | cons p ps ih =>
      intro acc hin
      have hp := hin p (by simp)
      rw [List.foldl_cons, ih _ fun q hq => hin q (List.mem_cons_of_mem _ hq)]
      rw [plot, cell_flipCell _ (by omega) (by omega), if_neg (by omega)]
  exact main _ _ fun p hp => targets_inside hp

/-- A cell after a scroll (R127). -/
theorem cell_scroll (s : State) (f : Nat → Nat → Nat → Bool) {r c : Nat} (hr : r < 64) (hc : c < 128) :
    cell (s.scroll f).fb r c =
      match s.scrollRegion with
      | none => cell s.fb r c
      | some (rh, rw) => if r < rh ∧ c < rw then f rw r c else cell s.fb r c := by
  cases h : s.scrollRegion with
  | none => simp [State.scroll, h]
  | some p => simp [State.scroll, h, cell_ofCells, hr, hc]

/-- The regions a scroll can act on (R127). -/
theorem scrollRegion_cases (s : State) :
    (s.ext = true ∧ s.scrollRegion = some (64, 128)) ∨
      (s.ext = false ∧ s.scrollStd = .noop ∧ s.scrollRegion = none) ∨
      (s.ext = false ∧ s.scrollStd = .logical ∧ s.scrollRegion = some (32, 64)) ∨
      (s.ext = false ∧ s.scrollStd = .full ∧ s.scrollRegion = some (64, 128)) := by
  cases h : s.ext <;> cases h' : s.scrollStd <;> simp [State.scrollRegion, h, h']

end Sys2Proof.Laws
end

