-- ==== Sys2Proof/Laws/Memory.lean ====
section
/-!
SUPPORT. Laws of main memory: a read after a write, the frame of a write, and that every operation keeps the canonical
form (spec/20_memory.md R48, R51, R53).
-/

namespace Sys2Proof.Laws

open Sys2Proof.Machine

theorem memory_nil_wf : Memory.wf [] := by simp [Memory.wf]

/-- The tail of a canonical memory is canonical, and its addresses lie above the head's. -/
theorem memory_wf_cons {b : Nat} {w : Byte} {m : Memory} (h : Memory.wf ((b, w) :: m)) :
    Memory.wf m ∧ (∀ p ∈ m, b < p.1) ∧ b < Config.memSize ∧ w ≠ Memory.unlisted b := by
  obtain ⟨hs, ha⟩ := h
  rw [List.pairwise_cons] at hs
  exact ⟨⟨hs.2, fun p hp => ha p (List.mem_cons_of_mem _ hp)⟩, hs.1, ha (b, w) (by simp)⟩

/-- An address below every entry reads as unlisted. -/
theorem memory_read_below {m : Memory} {a : Nat} (h : ∀ p ∈ m, a < p.1) : m.read a = Memory.unlisted a := by
  induction m with
  | nil => rfl
  | cons p m ih =>
    obtain ⟨b, w⟩ := p
    have hb : a < b := h (b, w) (by simp)
    rw [Memory.read, if_neg (by omega)]
    exact ih fun p hp => h p (List.mem_cons_of_mem _ hp)

theorem memory_entry_wf {m : Memory} {a : Nat} {v : Byte} (h : m.wf) (ha : a < Config.memSize)
    (hlt : ∀ p ∈ m, a < p.1) : (Memory.entry a v m).wf := by
  unfold Memory.entry
  split
  · exact h
  · next hv => exact ⟨List.pairwise_cons.2 ⟨fun p hp => hlt p hp, h.1⟩, by simpa [ha, hv] using h.2⟩

theorem memory_read_entry {m : Memory} {a b : Nat} {v : Byte} (hlt : ∀ p ∈ m, a < p.1) :
    (Memory.entry a v m).read b = if b = a then v else m.read b := by
  unfold Memory.entry
  split
  · next hv =>
    split
    · next hb => rw [hb, hv, memory_read_below hlt]
    · rfl
  · rfl

theorem memory_entry_addresses {m : Memory} {a : Nat} {v : Byte} {p : Host.Cell} (hp : p ∈ Memory.entry a v m) :
    p.1 = a ∨ p ∈ m := by
  unfold Memory.entry at hp
  split at hp
  · exact .inr hp
  · rcases List.mem_cons.1 hp with rfl | h
    · exact .inl rfl
    · exact .inr h

theorem memory_write_addresses {m : Memory} {a : Nat} {v : Byte} {p : Host.Cell} (hp : p ∈ m.write a v) :
    p.1 = a ∨ p ∈ m := by
  induction m with
  | nil => exact memory_entry_addresses hp
  | cons q m ih =>
    obtain ⟨b, w⟩ := q
    rw [Memory.write] at hp
    split at hp
    · exact memory_entry_addresses hp
    · split at hp
      · exact (memory_entry_addresses hp).imp_right (List.mem_cons_of_mem _)
      · rcases List.mem_cons.1 hp with rfl | h
        · exact .inr (by simp)
        · exact (ih h).imp_right (List.mem_cons_of_mem _)

/-- A write keeps the canonical form. -/
theorem memory_write_wf {m : Memory} {a : Nat} {v : Byte} (h : m.wf) (ha : a < Config.memSize) : (m.write a v).wf := by
  induction m with
  | nil => exact memory_entry_wf h ha (by simp)
  | cons q m ih =>
    obtain ⟨b, w⟩ := q
    obtain ⟨hm, hlt, hb, hw⟩ := memory_wf_cons h
    rw [Memory.write]
    split
    · next hab =>
      refine memory_entry_wf h ha fun p hp => ?_
      rcases List.mem_cons.1 hp with rfl | hp
      · exact hab
      · exact hab.trans (hlt p hp)
    · split
      · next hab => subst hab; exact memory_entry_wf hm ha hlt
      · next h1 h2 =>
        obtain ⟨hs, hp⟩ := ih hm
        refine ⟨List.pairwise_cons.2 ⟨fun p hp => ?_, hs⟩, ?_⟩
        · rcases memory_write_addresses hp with h | h
          · show b < p.1
            omega
          · exact hlt p h
        · intro p hp'
          rcases List.mem_cons.1 hp' with rfl | h
          · exact ⟨hb, hw⟩
          · exact hp p h

/-- A read after a write: the written byte at its address, every other byte as before (R53). -/
theorem memory_read_write {m : Memory} {a b : Nat} {v : Byte} (h : m.wf) :
    (m.write a v).read b = if b = a then v else m.read b := by
  induction m with
  | nil => exact memory_read_entry (by simp)
  | cons q m ih =>
    obtain ⟨c, w⟩ := q
    obtain ⟨hm, hlt, -, -⟩ := memory_wf_cons h
    rw [Memory.write]
    split
    · next hac =>
      refine memory_read_entry fun p hp => ?_
      rcases List.mem_cons.1 hp with rfl | hp
      · exact hac
      · exact hac.trans (hlt p hp)
    · split
      · next hac =>
        subst hac
        rw [memory_read_entry hlt]
        by_cases hb : b = a <;> simp [Memory.read, hb]
      · next h1 h2 =>
        simp only [Memory.read, ih hm]
        by_cases hb : b = a
        · subst hb; simp [h2]
        · simp [hb]

theorem memory_writeBytes_wf {m : Memory} {a : Nat} {vs : List Byte} (h : m.wf) (ha : a + vs.length ≤ Config.memSize) :
    (m.writeBytes a vs).wf := by
  induction vs generalizing m a with
  | nil => exact h
  | cons v vs ih =>
    simp only [List.length_cons] at ha
    exact ih (memory_write_wf h (by omega)) (by omega)

/-- A read after a store of several bytes (R44). -/
theorem memory_read_writeBytes {m : Memory} {a b : Nat} {vs : List Byte} (h : m.wf)
    (ha : a + vs.length ≤ Config.memSize) :
    (m.writeBytes a vs).read b = if a ≤ b ∧ b < a + vs.length then vs.getD (b - a) 0 else m.read b := by
  induction vs generalizing m a with
  | nil =>
    have : ¬ (a ≤ b ∧ b < a + ([] : List Byte).length) := by simp
    rw [if_neg this]; rfl
  | cons v vs ih =>
    simp only [List.length_cons] at ha ⊢
    rw [Memory.writeBytes, ih (memory_write_wf h (by omega)) (by omega), memory_read_write h]
    rcases Nat.lt_trichotomy b a with hb | rfl | hb
    · rw [if_neg (by omega), if_neg (by omega), if_neg (by omega)]
    · rw [if_neg (by omega), if_pos rfl, if_pos (by omega)]; simp
    · obtain ⟨k, rfl⟩ : ∃ k, b = a + 1 + k := ⟨b - (a + 1), by omega⟩
      have e : a + 1 + k - a = k + 1 := by omega
      by_cases hk : k < vs.length
      · rw [if_pos (by omega), if_pos (by omega), e]; simp
      · rw [if_neg (by omega), if_neg (by omega), if_neg (by omega)]

@[simp] theorem memory_readBytes_length (m : Memory) (a n : Nat) : (m.readBytes a n).length = n := by
  induction n generalizing a with
  | zero => rfl
  | succ n ih => simp [Memory.readBytes, ih]

theorem memory_readBytes_getElem? (m : Memory) (a n i : Nat) :
    (m.readBytes a n)[i]? = if i < n then some (m.read (a + i)) else none := by
  induction n generalizing a i with
  | zero => simp [Memory.readBytes]
  | succ n ih =>
    cases i with
    | zero => simp [Memory.readBytes]
    | succ i => simp [Memory.readBytes, ih, Nat.add_assoc, Nat.add_comm 1 i]

/-- The byte `i` of a read is the byte of memory at `a + i`. -/
theorem memory_readBytes_getD (m : Memory) {a n i : Nat} (h : i < n) :
    (m.readBytes a n).getD i 0 = m.read (a + i) := by
  rw [List.getD_eq_getElem?_getD, memory_readBytes_getElem?, if_pos h]
  rfl

theorem memory_tabulate_spec (f : Nat → Byte) (start n : Nat) (h : start + n ≤ Config.memSize) :
    (Memory.tabulate f start n).wf ∧ (∀ p ∈ Memory.tabulate f start n, start ≤ p.1) ∧
      ∀ a, (Memory.tabulate f start n).read a = if start ≤ a ∧ a < start + n then f a else Memory.unlisted a := by
  induction n generalizing start with
  | zero =>
    refine ⟨memory_nil_wf, by simp [Memory.tabulate], fun a => ?_⟩
    rw [if_neg (by omega)]; rfl
  | succ n ih =>
    obtain ⟨hw, hge, hr⟩ := ih (start + 1) (by omega)
    have hlt : ∀ p ∈ Memory.tabulate f (start + 1) n, start < p.1 := fun p hp => hge p hp
    refine ⟨memory_entry_wf hw (by omega) hlt, fun p hp => ?_, fun a => ?_⟩
    · rcases memory_entry_addresses hp with h | h
      · omega
      · exact (hlt p h).le
    · rw [Memory.tabulate, memory_read_entry hlt, hr]
      by_cases ha : a = start
      · subst ha; simp
      · rw [if_neg ha]
        by_cases hb : start + 1 ≤ a ∧ a < start + 1 + n
        · rw [if_pos hb, if_pos (by omega)]
        · rw [if_neg hb, if_neg (by omega)]

/-- A memory filled byte by byte is canonical. -/
theorem memory_tabulate_wf (f : Nat → Byte) : (Memory.tabulate f 0 Config.memSize).wf :=
  (memory_tabulate_spec f 0 _ (by simp)).1

/-- What `MemRead` can answer: the bytes where every address exists, else AddressRange (R45, R53). -/
theorem memRead_cases (m : Memory) (a n : Nat) :
    ((n = 0 ∨ a + n ≤ Config.memSize) ∧ memRead m a n = .ok (m.readBytes a n)) ∨
      ((0 < n ∧ Config.memSize < a + n) ∧ memRead m a n = .error .addressRange) := by
  unfold memRead
  split
  · next h => exact .inl ⟨h, rfl⟩
  · next h => exact .inr ⟨by omega, rfl⟩

/-- What `MemWrite` can answer: the stored memory where every address exists, else AddressRange (R45, R53). -/
theorem memWrite_cases (m : Memory) (a : Nat) (vs : List Byte) :
    ((vs.length = 0 ∨ a + vs.length ≤ Config.memSize) ∧ memWrite m a vs = .ok (m.writeBytes a vs)) ∨
      ((0 < vs.length ∧ Config.memSize < a + vs.length) ∧ memWrite m a vs = .error .addressRange) := by
  unfold memWrite
  split
  · next h => exact .inl ⟨h, rfl⟩
  · next h => exact .inr ⟨by omega, rfl⟩

/-- A store that succeeds keeps the canonical form. -/
theorem memWrite_wf {m t : Memory} {a : Nat} {vs : List Byte} (h : m.wf) (ht : memWrite m a vs = .ok t) : t.wf := by
  rcases memWrite_cases m a vs with ⟨hr, e⟩ | ⟨-, e⟩
  · rw [e] at ht
    cases ht
    rcases hr with h0 | hr
    · rw [List.length_eq_zero_iff.1 h0]; exact h
    · exact memory_writeBytes_wf h hr
  · rw [e] at ht; cases ht

end Sys2Proof.Laws
end

