-- ==== Sys2Proof/Laws/State.lean ====
section
/-!
SUPPORT. One lemma per field per named update: what the update writes and that it leaves the rest. No later proof unfolds a
record update.
-/

namespace Sys2Proof.Laws

open Sys2Proof.Machine

variable (s : State)

/-! ## setReg -/

@[simp] theorem setReg_v (i : Reg) (b : Byte) : (s.setReg i b).v = s.v.set i.val b := rfl
@[simp] theorem setReg_index (i : Reg) (b : Byte) : (s.setReg i b).index = s.index := rfl
@[simp] theorem setReg_pc (i : Reg) (b : Byte) : (s.setReg i b).pc = s.pc := rfl
@[simp] theorem setReg_sp (i : Reg) (b : Byte) : (s.setReg i b).sp = s.sp := rfl
@[simp] theorem setReg_stack (i : Reg) (b : Byte) : (s.setReg i b).stack = s.stack := rfl
@[simp] theorem setReg_rpl (i : Reg) (b : Byte) : (s.setReg i b).rpl = s.rpl := rfl
@[simp] theorem setReg_mem (i : Reg) (b : Byte) : (s.setReg i b).mem = s.mem := rfl
@[simp] theorem setReg_fb (i : Reg) (b : Byte) : (s.setReg i b).fb = s.fb := rfl
@[simp] theorem setReg_ext (i : Reg) (b : Byte) : (s.setReg i b).ext = s.ext := rfl
@[simp] theorem setReg_dirty (i : Reg) (b : Byte) : (s.setReg i b).dirty = s.dirty := rfl
@[simp] theorem setReg_dt (i : Reg) (b : Byte) : (s.setReg i b).dt = s.dt := rfl
@[simp] theorem setReg_st (i : Reg) (b : Byte) : (s.setReg i b).st = s.st := rfl
@[simp] theorem setReg_prev (i : Reg) (b : Byte) : (s.setReg i b).prev = s.prev := rfl
@[simp] theorem setReg_halted (i : Reg) (b : Byte) : (s.setReg i b).halted = s.halted := rfl
@[simp] theorem setReg_stop (i : Reg) (b : Byte) : (s.setReg i b).stop = s.stop := rfl
@[simp] theorem setReg_q (i : Reg) (b : Byte) : (s.setReg i b).q = s.q := rfl
@[simp] theorem setReg_scrollStd (i : Reg) (b : Byte) : (s.setReg i b).scrollStd = s.scrollStd := rfl
@[simp] theorem setReg_key (i : Reg) (b : Byte) : (s.setReg i b).key = s.key := rfl
@[simp] theorem setReg_rnd (i : Reg) (b : Byte) : (s.setReg i b).rnd = s.rnd := rfl
@[simp] theorem setReg_diag (i : Reg) (b : Byte) : (s.setReg i b).diag = s.diag := rfl
@[simp] theorem setReg_script (i : Reg) (b : Byte) : (s.setReg i b).script = s.script := rfl
@[simp] theorem setReg_draws (i : Reg) (b : Byte) : (s.setReg i b).draws = s.draws := rfl

/-! ## setFlag -/

@[simp] theorem setFlag_v (b : Byte) : (s.setFlag b).v = s.v.set 15 b := rfl
@[simp] theorem setFlag_index (b : Byte) : (s.setFlag b).index = s.index := rfl
@[simp] theorem setFlag_pc (b : Byte) : (s.setFlag b).pc = s.pc := rfl
@[simp] theorem setFlag_sp (b : Byte) : (s.setFlag b).sp = s.sp := rfl
@[simp] theorem setFlag_stack (b : Byte) : (s.setFlag b).stack = s.stack := rfl
@[simp] theorem setFlag_rpl (b : Byte) : (s.setFlag b).rpl = s.rpl := rfl
@[simp] theorem setFlag_mem (b : Byte) : (s.setFlag b).mem = s.mem := rfl
@[simp] theorem setFlag_fb (b : Byte) : (s.setFlag b).fb = s.fb := rfl
@[simp] theorem setFlag_ext (b : Byte) : (s.setFlag b).ext = s.ext := rfl
@[simp] theorem setFlag_dirty (b : Byte) : (s.setFlag b).dirty = s.dirty := rfl
@[simp] theorem setFlag_dt (b : Byte) : (s.setFlag b).dt = s.dt := rfl
@[simp] theorem setFlag_st (b : Byte) : (s.setFlag b).st = s.st := rfl
@[simp] theorem setFlag_prev (b : Byte) : (s.setFlag b).prev = s.prev := rfl
@[simp] theorem setFlag_halted (b : Byte) : (s.setFlag b).halted = s.halted := rfl
@[simp] theorem setFlag_stop (b : Byte) : (s.setFlag b).stop = s.stop := rfl
@[simp] theorem setFlag_q (b : Byte) : (s.setFlag b).q = s.q := rfl
@[simp] theorem setFlag_scrollStd (b : Byte) : (s.setFlag b).scrollStd = s.scrollStd := rfl
@[simp] theorem setFlag_key (b : Byte) : (s.setFlag b).key = s.key := rfl
@[simp] theorem setFlag_rnd (b : Byte) : (s.setFlag b).rnd = s.rnd := rfl
@[simp] theorem setFlag_diag (b : Byte) : (s.setFlag b).diag = s.diag := rfl
@[simp] theorem setFlag_script (b : Byte) : (s.setFlag b).script = s.script := rfl
@[simp] theorem setFlag_draws (b : Byte) : (s.setFlag b).draws = s.draws := rfl

/-! ## setRegs -/

@[simp] theorem setRegs_index (l : List Byte) : (s.setRegs l).index = s.index := by simp only [State.setRegs]
@[simp] theorem setRegs_pc (l : List Byte) : (s.setRegs l).pc = s.pc := by simp only [State.setRegs]
@[simp] theorem setRegs_sp (l : List Byte) : (s.setRegs l).sp = s.sp := by simp only [State.setRegs]
@[simp] theorem setRegs_stack (l : List Byte) : (s.setRegs l).stack = s.stack := by simp only [State.setRegs]
@[simp] theorem setRegs_rpl (l : List Byte) : (s.setRegs l).rpl = s.rpl := by simp only [State.setRegs]
@[simp] theorem setRegs_mem (l : List Byte) : (s.setRegs l).mem = s.mem := by simp only [State.setRegs]
@[simp] theorem setRegs_fb (l : List Byte) : (s.setRegs l).fb = s.fb := by simp only [State.setRegs]
@[simp] theorem setRegs_ext (l : List Byte) : (s.setRegs l).ext = s.ext := by simp only [State.setRegs]
@[simp] theorem setRegs_dirty (l : List Byte) : (s.setRegs l).dirty = s.dirty := by simp only [State.setRegs]
@[simp] theorem setRegs_dt (l : List Byte) : (s.setRegs l).dt = s.dt := by simp only [State.setRegs]
@[simp] theorem setRegs_st (l : List Byte) : (s.setRegs l).st = s.st := by simp only [State.setRegs]
@[simp] theorem setRegs_prev (l : List Byte) : (s.setRegs l).prev = s.prev := by simp only [State.setRegs]
@[simp] theorem setRegs_halted (l : List Byte) : (s.setRegs l).halted = s.halted := by simp only [State.setRegs]
@[simp] theorem setRegs_stop (l : List Byte) : (s.setRegs l).stop = s.stop := by simp only [State.setRegs]
@[simp] theorem setRegs_q (l : List Byte) : (s.setRegs l).q = s.q := by simp only [State.setRegs]
@[simp] theorem setRegs_scrollStd (l : List Byte) : (s.setRegs l).scrollStd = s.scrollStd := by simp only [State.setRegs]
@[simp] theorem setRegs_key (l : List Byte) : (s.setRegs l).key = s.key := by simp only [State.setRegs]
@[simp] theorem setRegs_rnd (l : List Byte) : (s.setRegs l).rnd = s.rnd := by simp only [State.setRegs]
@[simp] theorem setRegs_diag (l : List Byte) : (s.setRegs l).diag = s.diag := by simp only [State.setRegs]
@[simp] theorem setRegs_script (l : List Byte) : (s.setRegs l).script = s.script := by simp only [State.setRegs]
@[simp] theorem setRegs_draws (l : List Byte) : (s.setRegs l).draws = s.draws := by simp only [State.setRegs]

/-! ## setRpl -/

@[simp] theorem setRpl_v (l : List Byte) : (s.setRpl l).v = s.v := by simp only [State.setRpl]
@[simp] theorem setRpl_index (l : List Byte) : (s.setRpl l).index = s.index := by simp only [State.setRpl]
@[simp] theorem setRpl_pc (l : List Byte) : (s.setRpl l).pc = s.pc := by simp only [State.setRpl]
@[simp] theorem setRpl_sp (l : List Byte) : (s.setRpl l).sp = s.sp := by simp only [State.setRpl]
@[simp] theorem setRpl_stack (l : List Byte) : (s.setRpl l).stack = s.stack := by simp only [State.setRpl]
@[simp] theorem setRpl_mem (l : List Byte) : (s.setRpl l).mem = s.mem := by simp only [State.setRpl]
@[simp] theorem setRpl_fb (l : List Byte) : (s.setRpl l).fb = s.fb := by simp only [State.setRpl]
@[simp] theorem setRpl_ext (l : List Byte) : (s.setRpl l).ext = s.ext := by simp only [State.setRpl]
@[simp] theorem setRpl_dirty (l : List Byte) : (s.setRpl l).dirty = s.dirty := by simp only [State.setRpl]
@[simp] theorem setRpl_dt (l : List Byte) : (s.setRpl l).dt = s.dt := by simp only [State.setRpl]
@[simp] theorem setRpl_st (l : List Byte) : (s.setRpl l).st = s.st := by simp only [State.setRpl]
@[simp] theorem setRpl_prev (l : List Byte) : (s.setRpl l).prev = s.prev := by simp only [State.setRpl]
@[simp] theorem setRpl_halted (l : List Byte) : (s.setRpl l).halted = s.halted := by simp only [State.setRpl]
@[simp] theorem setRpl_stop (l : List Byte) : (s.setRpl l).stop = s.stop := by simp only [State.setRpl]
@[simp] theorem setRpl_q (l : List Byte) : (s.setRpl l).q = s.q := by simp only [State.setRpl]
@[simp] theorem setRpl_scrollStd (l : List Byte) : (s.setRpl l).scrollStd = s.scrollStd := by simp only [State.setRpl]
@[simp] theorem setRpl_key (l : List Byte) : (s.setRpl l).key = s.key := by simp only [State.setRpl]
@[simp] theorem setRpl_rnd (l : List Byte) : (s.setRpl l).rnd = s.rnd := by simp only [State.setRpl]
@[simp] theorem setRpl_diag (l : List Byte) : (s.setRpl l).diag = s.diag := by simp only [State.setRpl]
@[simp] theorem setRpl_script (l : List Byte) : (s.setRpl l).script = s.script := by simp only [State.setRpl]
@[simp] theorem setRpl_draws (l : List Byte) : (s.setRpl l).draws = s.draws := by simp only [State.setRpl]

/-! ## setIndex -/

@[simp] theorem setIndex_v (w : Word) : (s.setIndex w).v = s.v := rfl
@[simp] theorem setIndex_index (w : Word) : (s.setIndex w).index = w := rfl
@[simp] theorem setIndex_pc (w : Word) : (s.setIndex w).pc = s.pc := rfl
@[simp] theorem setIndex_sp (w : Word) : (s.setIndex w).sp = s.sp := rfl
@[simp] theorem setIndex_stack (w : Word) : (s.setIndex w).stack = s.stack := rfl
@[simp] theorem setIndex_rpl (w : Word) : (s.setIndex w).rpl = s.rpl := rfl
@[simp] theorem setIndex_mem (w : Word) : (s.setIndex w).mem = s.mem := rfl
@[simp] theorem setIndex_fb (w : Word) : (s.setIndex w).fb = s.fb := rfl
@[simp] theorem setIndex_ext (w : Word) : (s.setIndex w).ext = s.ext := rfl
@[simp] theorem setIndex_dirty (w : Word) : (s.setIndex w).dirty = s.dirty := rfl
@[simp] theorem setIndex_dt (w : Word) : (s.setIndex w).dt = s.dt := rfl
@[simp] theorem setIndex_st (w : Word) : (s.setIndex w).st = s.st := rfl
@[simp] theorem setIndex_prev (w : Word) : (s.setIndex w).prev = s.prev := rfl
@[simp] theorem setIndex_halted (w : Word) : (s.setIndex w).halted = s.halted := rfl
@[simp] theorem setIndex_stop (w : Word) : (s.setIndex w).stop = s.stop := rfl
@[simp] theorem setIndex_q (w : Word) : (s.setIndex w).q = s.q := rfl
@[simp] theorem setIndex_scrollStd (w : Word) : (s.setIndex w).scrollStd = s.scrollStd := rfl
@[simp] theorem setIndex_key (w : Word) : (s.setIndex w).key = s.key := rfl
@[simp] theorem setIndex_rnd (w : Word) : (s.setIndex w).rnd = s.rnd := rfl
@[simp] theorem setIndex_diag (w : Word) : (s.setIndex w).diag = s.diag := rfl
@[simp] theorem setIndex_script (w : Word) : (s.setIndex w).script = s.script := rfl
@[simp] theorem setIndex_draws (w : Word) : (s.setIndex w).draws = s.draws := rfl

/-! ## jump -/

@[simp] theorem jump_v (w : Word) : (s.jump w).v = s.v := rfl
@[simp] theorem jump_index (w : Word) : (s.jump w).index = s.index := rfl
@[simp] theorem jump_pc (w : Word) : (s.jump w).pc = w := rfl
@[simp] theorem jump_sp (w : Word) : (s.jump w).sp = s.sp := rfl
@[simp] theorem jump_stack (w : Word) : (s.jump w).stack = s.stack := rfl
@[simp] theorem jump_rpl (w : Word) : (s.jump w).rpl = s.rpl := rfl
@[simp] theorem jump_mem (w : Word) : (s.jump w).mem = s.mem := rfl
@[simp] theorem jump_fb (w : Word) : (s.jump w).fb = s.fb := rfl
@[simp] theorem jump_ext (w : Word) : (s.jump w).ext = s.ext := rfl
@[simp] theorem jump_dirty (w : Word) : (s.jump w).dirty = s.dirty := rfl
@[simp] theorem jump_dt (w : Word) : (s.jump w).dt = s.dt := rfl
@[simp] theorem jump_st (w : Word) : (s.jump w).st = s.st := rfl
@[simp] theorem jump_prev (w : Word) : (s.jump w).prev = s.prev := rfl
@[simp] theorem jump_halted (w : Word) : (s.jump w).halted = s.halted := rfl
@[simp] theorem jump_stop (w : Word) : (s.jump w).stop = s.stop := rfl
@[simp] theorem jump_q (w : Word) : (s.jump w).q = s.q := rfl
@[simp] theorem jump_scrollStd (w : Word) : (s.jump w).scrollStd = s.scrollStd := rfl
@[simp] theorem jump_key (w : Word) : (s.jump w).key = s.key := rfl
@[simp] theorem jump_rnd (w : Word) : (s.jump w).rnd = s.rnd := rfl
@[simp] theorem jump_diag (w : Word) : (s.jump w).diag = s.diag := rfl
@[simp] theorem jump_script (w : Word) : (s.jump w).script = s.script := rfl
@[simp] theorem jump_draws (w : Word) : (s.jump w).draws = s.draws := rfl

/-! ## advance -/

@[simp] theorem advance_v : (s.advance).v = s.v := rfl
@[simp] theorem advance_index : (s.advance).index = s.index := rfl
@[simp] theorem advance_pc : (s.advance).pc = s.pc + 2 := rfl
@[simp] theorem advance_sp : (s.advance).sp = s.sp := rfl
@[simp] theorem advance_stack : (s.advance).stack = s.stack := rfl
@[simp] theorem advance_rpl : (s.advance).rpl = s.rpl := rfl
@[simp] theorem advance_mem : (s.advance).mem = s.mem := rfl
@[simp] theorem advance_fb : (s.advance).fb = s.fb := rfl
@[simp] theorem advance_ext : (s.advance).ext = s.ext := rfl
@[simp] theorem advance_dirty : (s.advance).dirty = s.dirty := rfl
@[simp] theorem advance_dt : (s.advance).dt = s.dt := rfl
@[simp] theorem advance_st : (s.advance).st = s.st := rfl
@[simp] theorem advance_prev : (s.advance).prev = s.prev := rfl
@[simp] theorem advance_halted : (s.advance).halted = s.halted := rfl
@[simp] theorem advance_stop : (s.advance).stop = s.stop := rfl
@[simp] theorem advance_q : (s.advance).q = s.q := rfl
@[simp] theorem advance_scrollStd : (s.advance).scrollStd = s.scrollStd := rfl
@[simp] theorem advance_key : (s.advance).key = s.key := rfl
@[simp] theorem advance_rnd : (s.advance).rnd = s.rnd := rfl
@[simp] theorem advance_diag : (s.advance).diag = s.diag := rfl
@[simp] theorem advance_script : (s.advance).script = s.script := rfl
@[simp] theorem advance_draws : (s.advance).draws = s.draws := rfl

/-! ## rewind -/

@[simp] theorem rewind_v : (s.rewind).v = s.v := rfl
@[simp] theorem rewind_index : (s.rewind).index = s.index := rfl
@[simp] theorem rewind_pc : (s.rewind).pc = s.pc - 2 := rfl
@[simp] theorem rewind_sp : (s.rewind).sp = s.sp := rfl
@[simp] theorem rewind_stack : (s.rewind).stack = s.stack := rfl
@[simp] theorem rewind_rpl : (s.rewind).rpl = s.rpl := rfl
@[simp] theorem rewind_mem : (s.rewind).mem = s.mem := rfl
@[simp] theorem rewind_fb : (s.rewind).fb = s.fb := rfl
@[simp] theorem rewind_ext : (s.rewind).ext = s.ext := rfl
@[simp] theorem rewind_dirty : (s.rewind).dirty = s.dirty := rfl
@[simp] theorem rewind_dt : (s.rewind).dt = s.dt := rfl
@[simp] theorem rewind_st : (s.rewind).st = s.st := rfl
@[simp] theorem rewind_prev : (s.rewind).prev = s.prev := rfl
@[simp] theorem rewind_halted : (s.rewind).halted = s.halted := rfl
@[simp] theorem rewind_stop : (s.rewind).stop = s.stop := rfl
@[simp] theorem rewind_q : (s.rewind).q = s.q := rfl
@[simp] theorem rewind_scrollStd : (s.rewind).scrollStd = s.scrollStd := rfl
@[simp] theorem rewind_key : (s.rewind).key = s.key := rfl
@[simp] theorem rewind_rnd : (s.rewind).rnd = s.rnd := rfl
@[simp] theorem rewind_diag : (s.rewind).diag = s.diag := rfl
@[simp] theorem rewind_script : (s.rewind).script = s.script := rfl
@[simp] theorem rewind_draws : (s.rewind).draws = s.draws := rfl

/-! ## skipIf -/

@[simp] theorem skipIf_v (c : Bool) : (s.skipIf c).v = s.v := by cases c <;> rfl
@[simp] theorem skipIf_index (c : Bool) : (s.skipIf c).index = s.index := by cases c <;> rfl
@[simp] theorem skipIf_pc (c : Bool) : (s.skipIf c).pc = if c then s.pc + 2 else s.pc := by cases c <;> rfl
@[simp] theorem skipIf_sp (c : Bool) : (s.skipIf c).sp = s.sp := by cases c <;> rfl
@[simp] theorem skipIf_stack (c : Bool) : (s.skipIf c).stack = s.stack := by cases c <;> rfl
@[simp] theorem skipIf_rpl (c : Bool) : (s.skipIf c).rpl = s.rpl := by cases c <;> rfl
@[simp] theorem skipIf_mem (c : Bool) : (s.skipIf c).mem = s.mem := by cases c <;> rfl
@[simp] theorem skipIf_fb (c : Bool) : (s.skipIf c).fb = s.fb := by cases c <;> rfl
@[simp] theorem skipIf_ext (c : Bool) : (s.skipIf c).ext = s.ext := by cases c <;> rfl
@[simp] theorem skipIf_dirty (c : Bool) : (s.skipIf c).dirty = s.dirty := by cases c <;> rfl
@[simp] theorem skipIf_dt (c : Bool) : (s.skipIf c).dt = s.dt := by cases c <;> rfl
@[simp] theorem skipIf_st (c : Bool) : (s.skipIf c).st = s.st := by cases c <;> rfl
@[simp] theorem skipIf_prev (c : Bool) : (s.skipIf c).prev = s.prev := by cases c <;> rfl
@[simp] theorem skipIf_halted (c : Bool) : (s.skipIf c).halted = s.halted := by cases c <;> rfl
@[simp] theorem skipIf_stop (c : Bool) : (s.skipIf c).stop = s.stop := by cases c <;> rfl
@[simp] theorem skipIf_q (c : Bool) : (s.skipIf c).q = s.q := by cases c <;> rfl
@[simp] theorem skipIf_scrollStd (c : Bool) : (s.skipIf c).scrollStd = s.scrollStd := by cases c <;> rfl
@[simp] theorem skipIf_key (c : Bool) : (s.skipIf c).key = s.key := by cases c <;> rfl
@[simp] theorem skipIf_rnd (c : Bool) : (s.skipIf c).rnd = s.rnd := by cases c <;> rfl
@[simp] theorem skipIf_diag (c : Bool) : (s.skipIf c).diag = s.diag := by cases c <;> rfl
@[simp] theorem skipIf_script (c : Bool) : (s.skipIf c).script = s.script := by cases c <;> rfl
@[simp] theorem skipIf_draws (c : Bool) : (s.skipIf c).draws = s.draws := by cases c <;> rfl

/-! ## redraw -/

@[simp] theorem redraw_v (fb : Framebuffer) : (s.redraw fb).v = s.v := rfl
@[simp] theorem redraw_index (fb : Framebuffer) : (s.redraw fb).index = s.index := rfl
@[simp] theorem redraw_pc (fb : Framebuffer) : (s.redraw fb).pc = s.pc := rfl
@[simp] theorem redraw_sp (fb : Framebuffer) : (s.redraw fb).sp = s.sp := rfl
@[simp] theorem redraw_stack (fb : Framebuffer) : (s.redraw fb).stack = s.stack := rfl
@[simp] theorem redraw_rpl (fb : Framebuffer) : (s.redraw fb).rpl = s.rpl := rfl
@[simp] theorem redraw_mem (fb : Framebuffer) : (s.redraw fb).mem = s.mem := rfl
@[simp] theorem redraw_fb (fb : Framebuffer) : (s.redraw fb).fb = fb := rfl
@[simp] theorem redraw_ext (fb : Framebuffer) : (s.redraw fb).ext = s.ext := rfl
@[simp] theorem redraw_dirty (fb : Framebuffer) : (s.redraw fb).dirty = true := rfl
@[simp] theorem redraw_dt (fb : Framebuffer) : (s.redraw fb).dt = s.dt := rfl
@[simp] theorem redraw_st (fb : Framebuffer) : (s.redraw fb).st = s.st := rfl
@[simp] theorem redraw_prev (fb : Framebuffer) : (s.redraw fb).prev = s.prev := rfl
@[simp] theorem redraw_halted (fb : Framebuffer) : (s.redraw fb).halted = s.halted := rfl
@[simp] theorem redraw_stop (fb : Framebuffer) : (s.redraw fb).stop = s.stop := rfl
@[simp] theorem redraw_q (fb : Framebuffer) : (s.redraw fb).q = s.q := rfl
@[simp] theorem redraw_scrollStd (fb : Framebuffer) : (s.redraw fb).scrollStd = s.scrollStd := rfl
@[simp] theorem redraw_key (fb : Framebuffer) : (s.redraw fb).key = s.key := rfl
@[simp] theorem redraw_rnd (fb : Framebuffer) : (s.redraw fb).rnd = s.rnd := rfl
@[simp] theorem redraw_diag (fb : Framebuffer) : (s.redraw fb).diag = s.diag := rfl
@[simp] theorem redraw_script (fb : Framebuffer) : (s.redraw fb).script = s.script := rfl
@[simp] theorem redraw_draws (fb : Framebuffer) : (s.redraw fb).draws = s.draws := rfl

/-! ## scroll -/

@[simp] theorem scroll_v (f : Nat → Nat → Nat → Bool) : (s.scroll f).v = s.v := rfl
@[simp] theorem scroll_index (f : Nat → Nat → Nat → Bool) : (s.scroll f).index = s.index := rfl
@[simp] theorem scroll_pc (f : Nat → Nat → Nat → Bool) : (s.scroll f).pc = s.pc := rfl
@[simp] theorem scroll_sp (f : Nat → Nat → Nat → Bool) : (s.scroll f).sp = s.sp := rfl
@[simp] theorem scroll_stack (f : Nat → Nat → Nat → Bool) : (s.scroll f).stack = s.stack := rfl
@[simp] theorem scroll_rpl (f : Nat → Nat → Nat → Bool) : (s.scroll f).rpl = s.rpl := rfl
@[simp] theorem scroll_mem (f : Nat → Nat → Nat → Bool) : (s.scroll f).mem = s.mem := rfl
@[simp] theorem scroll_ext (f : Nat → Nat → Nat → Bool) : (s.scroll f).ext = s.ext := rfl
@[simp] theorem scroll_dirty (f : Nat → Nat → Nat → Bool) : (s.scroll f).dirty = (s.dirty || s.scrollRegion.isSome) := rfl
@[simp] theorem scroll_dt (f : Nat → Nat → Nat → Bool) : (s.scroll f).dt = s.dt := rfl
@[simp] theorem scroll_st (f : Nat → Nat → Nat → Bool) : (s.scroll f).st = s.st := rfl
@[simp] theorem scroll_prev (f : Nat → Nat → Nat → Bool) : (s.scroll f).prev = s.prev := rfl
@[simp] theorem scroll_halted (f : Nat → Nat → Nat → Bool) : (s.scroll f).halted = s.halted := rfl
@[simp] theorem scroll_stop (f : Nat → Nat → Nat → Bool) : (s.scroll f).stop = s.stop := rfl
@[simp] theorem scroll_q (f : Nat → Nat → Nat → Bool) : (s.scroll f).q = s.q := rfl
@[simp] theorem scroll_scrollStd (f : Nat → Nat → Nat → Bool) : (s.scroll f).scrollStd = s.scrollStd := rfl
@[simp] theorem scroll_key (f : Nat → Nat → Nat → Bool) : (s.scroll f).key = s.key := rfl
@[simp] theorem scroll_rnd (f : Nat → Nat → Nat → Bool) : (s.scroll f).rnd = s.rnd := rfl
@[simp] theorem scroll_diag (f : Nat → Nat → Nat → Bool) : (s.scroll f).diag = s.diag := rfl
@[simp] theorem scroll_script (f : Nat → Nat → Nat → Bool) : (s.scroll f).script = s.script := rfl
@[simp] theorem scroll_draws (f : Nat → Nat → Nat → Bool) : (s.scroll f).draws = s.draws := rfl

/-! ## snapshot -/

@[simp] theorem snapshot_v : (s.snapshot).v = s.v := rfl
@[simp] theorem snapshot_index : (s.snapshot).index = s.index := rfl
@[simp] theorem snapshot_pc : (s.snapshot).pc = s.pc := rfl
@[simp] theorem snapshot_sp : (s.snapshot).sp = s.sp := rfl
@[simp] theorem snapshot_stack : (s.snapshot).stack = s.stack := rfl
@[simp] theorem snapshot_rpl : (s.snapshot).rpl = s.rpl := rfl
@[simp] theorem snapshot_mem : (s.snapshot).mem = s.mem := rfl
@[simp] theorem snapshot_fb : (s.snapshot).fb = s.fb := rfl
@[simp] theorem snapshot_ext : (s.snapshot).ext = s.ext := rfl
@[simp] theorem snapshot_dirty : (s.snapshot).dirty = s.dirty := rfl
@[simp] theorem snapshot_dt : (s.snapshot).dt = s.dt := rfl
@[simp] theorem snapshot_st : (s.snapshot).st = s.st := rfl
@[simp] theorem snapshot_prev : (s.snapshot).prev = s.key := rfl
@[simp] theorem snapshot_halted : (s.snapshot).halted = s.halted := rfl
@[simp] theorem snapshot_stop : (s.snapshot).stop = s.stop := rfl
@[simp] theorem snapshot_q : (s.snapshot).q = s.q := rfl
@[simp] theorem snapshot_scrollStd : (s.snapshot).scrollStd = s.scrollStd := rfl
@[simp] theorem snapshot_key : (s.snapshot).key = s.key := rfl
@[simp] theorem snapshot_rnd : (s.snapshot).rnd = s.rnd := rfl
@[simp] theorem snapshot_diag : (s.snapshot).diag = s.diag := rfl
@[simp] theorem snapshot_script : (s.snapshot).script = s.script := rfl
@[simp] theorem snapshot_draws : (s.snapshot).draws = s.draws := rfl

/-! ## report -/

@[simp] theorem report_v (d : Option Word) : (s.report d).v = s.v := rfl
@[simp] theorem report_index (d : Option Word) : (s.report d).index = s.index := rfl
@[simp] theorem report_pc (d : Option Word) : (s.report d).pc = s.pc := rfl
@[simp] theorem report_sp (d : Option Word) : (s.report d).sp = s.sp := rfl
@[simp] theorem report_stack (d : Option Word) : (s.report d).stack = s.stack := rfl
@[simp] theorem report_rpl (d : Option Word) : (s.report d).rpl = s.rpl := rfl
@[simp] theorem report_mem (d : Option Word) : (s.report d).mem = s.mem := rfl
@[simp] theorem report_fb (d : Option Word) : (s.report d).fb = s.fb := rfl
@[simp] theorem report_ext (d : Option Word) : (s.report d).ext = s.ext := rfl
@[simp] theorem report_dirty (d : Option Word) : (s.report d).dirty = s.dirty := rfl
@[simp] theorem report_dt (d : Option Word) : (s.report d).dt = s.dt := rfl
@[simp] theorem report_st (d : Option Word) : (s.report d).st = s.st := rfl
@[simp] theorem report_prev (d : Option Word) : (s.report d).prev = s.prev := rfl
@[simp] theorem report_halted (d : Option Word) : (s.report d).halted = s.halted := rfl
@[simp] theorem report_stop (d : Option Word) : (s.report d).stop = s.stop := rfl
@[simp] theorem report_q (d : Option Word) : (s.report d).q = s.q := rfl
@[simp] theorem report_scrollStd (d : Option Word) : (s.report d).scrollStd = s.scrollStd := rfl
@[simp] theorem report_key (d : Option Word) : (s.report d).key = s.key := rfl
@[simp] theorem report_rnd (d : Option Word) : (s.report d).rnd = s.rnd := rfl
@[simp] theorem report_diag (d : Option Word) : (s.report d).diag = d := rfl
@[simp] theorem report_script (d : Option Word) : (s.report d).script = s.script := rfl
@[simp] theorem report_draws (d : Option Word) : (s.report d).draws = s.draws := rfl

/-! ## setResult -/

@[simp] theorem setResult_v (x : Reg) (b f : Byte) : (s.setResult x b f).v = (s.v.set x.val b).set 15 f := rfl
@[simp] theorem setResult_index (x : Reg) (b f : Byte) : (s.setResult x b f).index = s.index := rfl
@[simp] theorem setResult_pc (x : Reg) (b f : Byte) : (s.setResult x b f).pc = s.pc := rfl
@[simp] theorem setResult_sp (x : Reg) (b f : Byte) : (s.setResult x b f).sp = s.sp := rfl
@[simp] theorem setResult_stack (x : Reg) (b f : Byte) : (s.setResult x b f).stack = s.stack := rfl
@[simp] theorem setResult_rpl (x : Reg) (b f : Byte) : (s.setResult x b f).rpl = s.rpl := rfl
@[simp] theorem setResult_mem (x : Reg) (b f : Byte) : (s.setResult x b f).mem = s.mem := rfl
@[simp] theorem setResult_fb (x : Reg) (b f : Byte) : (s.setResult x b f).fb = s.fb := rfl
@[simp] theorem setResult_ext (x : Reg) (b f : Byte) : (s.setResult x b f).ext = s.ext := rfl
@[simp] theorem setResult_dirty (x : Reg) (b f : Byte) : (s.setResult x b f).dirty = s.dirty := rfl
@[simp] theorem setResult_dt (x : Reg) (b f : Byte) : (s.setResult x b f).dt = s.dt := rfl
@[simp] theorem setResult_st (x : Reg) (b f : Byte) : (s.setResult x b f).st = s.st := rfl
@[simp] theorem setResult_prev (x : Reg) (b f : Byte) : (s.setResult x b f).prev = s.prev := rfl
@[simp] theorem setResult_halted (x : Reg) (b f : Byte) : (s.setResult x b f).halted = s.halted := rfl
@[simp] theorem setResult_stop (x : Reg) (b f : Byte) : (s.setResult x b f).stop = s.stop := rfl
@[simp] theorem setResult_q (x : Reg) (b f : Byte) : (s.setResult x b f).q = s.q := rfl
@[simp] theorem setResult_scrollStd (x : Reg) (b f : Byte) : (s.setResult x b f).scrollStd = s.scrollStd := rfl
@[simp] theorem setResult_key (x : Reg) (b f : Byte) : (s.setResult x b f).key = s.key := rfl
@[simp] theorem setResult_rnd (x : Reg) (b f : Byte) : (s.setResult x b f).rnd = s.rnd := rfl
@[simp] theorem setResult_diag (x : Reg) (b f : Byte) : (s.setResult x b f).diag = s.diag := rfl
@[simp] theorem setResult_script (x : Reg) (b f : Byte) : (s.setResult x b f).script = s.script := rfl
@[simp] theorem setResult_draws (x : Reg) (b f : Byte) : (s.setResult x b f).draws = s.draws := rfl

/-! ## setLogic -/

@[simp] theorem setLogic_index (x : Reg) (b : Byte) : (s.setLogic x b).index = s.index := by unfold State.setLogic; split <;> rfl
@[simp] theorem setLogic_pc (x : Reg) (b : Byte) : (s.setLogic x b).pc = s.pc := by unfold State.setLogic; split <;> rfl
@[simp] theorem setLogic_sp (x : Reg) (b : Byte) : (s.setLogic x b).sp = s.sp := by unfold State.setLogic; split <;> rfl
@[simp] theorem setLogic_stack (x : Reg) (b : Byte) : (s.setLogic x b).stack = s.stack := by unfold State.setLogic; split <;> rfl
@[simp] theorem setLogic_rpl (x : Reg) (b : Byte) : (s.setLogic x b).rpl = s.rpl := by unfold State.setLogic; split <;> rfl
@[simp] theorem setLogic_mem (x : Reg) (b : Byte) : (s.setLogic x b).mem = s.mem := by unfold State.setLogic; split <;> rfl
@[simp] theorem setLogic_fb (x : Reg) (b : Byte) : (s.setLogic x b).fb = s.fb := by unfold State.setLogic; split <;> rfl
@[simp] theorem setLogic_ext (x : Reg) (b : Byte) : (s.setLogic x b).ext = s.ext := by unfold State.setLogic; split <;> rfl
@[simp] theorem setLogic_dirty (x : Reg) (b : Byte) : (s.setLogic x b).dirty = s.dirty := by unfold State.setLogic; split <;> rfl
@[simp] theorem setLogic_dt (x : Reg) (b : Byte) : (s.setLogic x b).dt = s.dt := by unfold State.setLogic; split <;> rfl
@[simp] theorem setLogic_st (x : Reg) (b : Byte) : (s.setLogic x b).st = s.st := by unfold State.setLogic; split <;> rfl
@[simp] theorem setLogic_prev (x : Reg) (b : Byte) : (s.setLogic x b).prev = s.prev := by unfold State.setLogic; split <;> rfl
@[simp] theorem setLogic_halted (x : Reg) (b : Byte) : (s.setLogic x b).halted = s.halted := by unfold State.setLogic; split <;> rfl
@[simp] theorem setLogic_stop (x : Reg) (b : Byte) : (s.setLogic x b).stop = s.stop := by unfold State.setLogic; split <;> rfl
@[simp] theorem setLogic_q (x : Reg) (b : Byte) : (s.setLogic x b).q = s.q := by unfold State.setLogic; split <;> rfl
@[simp] theorem setLogic_scrollStd (x : Reg) (b : Byte) : (s.setLogic x b).scrollStd = s.scrollStd := by unfold State.setLogic; split <;> rfl
@[simp] theorem setLogic_key (x : Reg) (b : Byte) : (s.setLogic x b).key = s.key := by unfold State.setLogic; split <;> rfl
@[simp] theorem setLogic_rnd (x : Reg) (b : Byte) : (s.setLogic x b).rnd = s.rnd := by unfold State.setLogic; split <;> rfl
@[simp] theorem setLogic_diag (x : Reg) (b : Byte) : (s.setLogic x b).diag = s.diag := by unfold State.setLogic; split <;> rfl
@[simp] theorem setLogic_script (x : Reg) (b : Byte) : (s.setLogic x b).script = s.script := by unfold State.setLogic; split <;> rfl
@[simp] theorem setLogic_draws (x : Reg) (b : Byte) : (s.setLogic x b).draws = s.draws := by unfold State.setLogic; split <;> rfl

/-! ## stopped: only the latch is known, and what is not the machine's stays -/

@[simp] theorem stopped_stop (c : StopCause) : (s.stopped c).stop = some c := rfl
@[simp] theorem stopped_q (c : StopCause) : (s.stopped c).q = s.q := rfl
@[simp] theorem stopped_scrollStd (c : StopCause) : (s.stopped c).scrollStd = s.scrollStd := rfl
@[simp] theorem stopped_key (c : StopCause) : (s.stopped c).key = s.key := rfl
@[simp] theorem stopped_rnd (c : StopCause) : (s.stopped c).rnd = s.rnd := rfl
@[simp] theorem stopped_script (c : StopCause) : (s.stopped c).script = s.script := rfl
@[simp] theorem stopped_diag (c : StopCause) : (s.stopped c).diag = none := rfl
@[simp] theorem stopped_draws (c : StopCause) : (s.stopped c).draws = s.draws + 1 := rfl

/-! ## Registers -/

/-- A register after a write to a register. -/
theorem reg_setReg (i j : Reg) (b : Byte) : (s.setReg i b).reg j = if j = i then b else s.reg j := by
  simp only [State.reg, setReg_v, Vector.getElem_set, Fin.val_eq_val, eq_comm]

@[simp] theorem reg_setReg_self (i : Reg) (b : Byte) : (s.setReg i b).reg i = b := by simp [reg_setReg]

theorem reg_setReg_ne {i j : Reg} (b : Byte) (h : j ≠ i) : (s.setReg i b).reg j = s.reg j := by simp [reg_setReg, h]

/-- A register after a result and its flag: the flag wins in `VF` (R8). -/
theorem reg_setResult (x j : Reg) (b f : Byte) :
    (s.setResult x b f).reg j = if j = vF then f else if j = x then b else s.reg j := by
  simp only [State.setResult, State.setFlag, reg_setReg]

/-- A register after a logical result (R103 to R105). -/
theorem reg_setLogic (x j : Reg) (b : Byte) :
    (s.setLogic x b).reg j = if s.q.vfReset = true ∧ j = vF then 0 else if j = x then b else s.reg j := by
  unfold State.setLogic
  split
  · next h => simp [reg_setResult, h]
  · next h => simp [reg_setReg, h]

/-- A register after a range write: the bytes of the list in the first registers, the others as before. -/
theorem reg_setRegs (l : List Byte) (j : Reg) : (s.setRegs l).reg j = l[j.val]?.getD (s.reg j) := by
  simp [State.setRegs, State.reg]

/-- The first registers as a list. -/
theorem firstRegs_getElem? (n i : Nat) (h : i < 16) :
    (s.firstRegs n)[i]? = if i < n then some (s.reg ⟨i, h⟩) else none := by
  simp [State.firstRegs, State.reg, List.getElem?_take, h]

@[simp] theorem firstRegs_length (n : Nat) : (s.firstRegs n).length = min n 16 := by simp [State.firstRegs]

/-- An RPL byte after a save. -/
theorem rpl_setRpl (l : List Byte) (i : Nat) (h : i < 8) : (s.setRpl l).rpl[i] = l[i]?.getD s.rpl[i] := by
  simp [State.setRpl]

end Sys2Proof.Laws
end

