-- ==== Sys2Proof/Laws/Ops.lean ====
section
/-!
SUPPORT. For each shared operation, one lemma that says everything it can answer. Proofs about instructions and steps cite
these and do not unfold the operation.
-/

namespace Sys2Proof.Laws

open Sys2Proof.Machine

variable (s : State)

@[simp] theorem orStop_ok (t : State) : s.orStop (.ok t) = .next t := rfl
@[simp] theorem orStop_error (c : StopCause) : s.orStop (.error c) = .next (s.stopped c) := rfl

/-- A stop leaves memory in canonical form, whatever the free bytes are. -/
theorem stopped_mem_wf (c : StopCause) : (s.stopped c).mem.wf := memory_tabulate_wf _

/-- CALL's push: below depth 16 the entry is written and the depth grows, at 16 it overflows (R81). -/
theorem push_cases (w : Word) :
    (∃ h : s.sp.val < 16,
      s.push w = .ok { s with stack := s.stack.set s.sp.val w h, sp := ⟨s.sp.val + 1, Nat.succ_lt_succ h⟩ }) ∨
      (s.sp.val = 16 ∧ s.push w = .error .stackOverflow) := by
  unfold State.push
  split
  · next h => exact .inl ⟨h, rfl⟩
  · next h => exact .inr ⟨by have := s.sp.isLt; omega, rfl⟩

/-- RET's pop: above depth 0 the depth shrinks and the entry is read, at 0 it underflows (R80). -/
theorem pop_cases :
    (∃ (_ : 0 < s.sp.val) (h : s.sp.val - 1 < 16),
      s.pop = .ok (s.stack[s.sp.val - 1], { s with sp := ⟨s.sp.val - 1, by omega⟩ })) ∨
      (s.sp.val = 0 ∧ s.pop = .error .stackUnderflow) := by
  have hlt := s.sp.isLt
  unfold State.pop
  split
  · next h => exact .inr ⟨h, rfl⟩
  · next h => exact .inl ⟨by omega, by omega, rfl⟩

/-- The key a register names: its state below 16, a stop from 16 on (R141). -/
theorem keyOf_cases (x : Reg) :
    ((s.reg x).toNat < 16 ∧ s.keyOf x = .ok (keyAt s.key (s.reg x).toNat)) ∨
      (16 ≤ (s.reg x).toNat ∧ s.keyOf x = .error .keyIndex) := by
  unfold State.keyOf
  split
  · next h => exact .inl ⟨h, rfl⟩
  · next h => exact .inr ⟨by omega, rfl⟩

/-- The fetch: the big-endian word of the two bytes at `pc`, or a stop (R42, R45, R60). -/
theorem fetch_cases :
    (s.pc.toNat < 4095 ∧ s.fetch = .ok (wordOf (s.mem.read s.pc.toNat) (s.mem.read (s.pc.toNat + 1)))) ∨
      (4095 ≤ s.pc.toNat ∧ s.fetch = .error .addressRange) := by
  unfold State.fetch
  rcases memRead_cases s.mem s.pc.toNat 2 with ⟨h, e⟩ | ⟨h, e⟩
  · have h : s.pc.toNat < 4095 := by simp [Config.memSize] at h; omega
    exact .inl ⟨h, by rw [e]; rfl⟩
  · have h : 4095 ≤ s.pc.toNat := by simp [Config.memSize] at h; omega
    exact .inr ⟨h, by rw [e]⟩

/-- The key wait-for-key finds: the lowest with the edge, or none has it (R143). -/
theorem firstEdge_cases :
    (∃ k, k < 16 ∧ s.edge k = true ∧ (∀ j < k, s.edge j = false) ∧ s.firstEdge = some k) ∨
      ((∀ k < 16, s.edge k = false) ∧ s.firstEdge = none) := by
  unfold State.firstEdge
  cases h : (List.range 16).find? s.edge with
  | none =>
    rw [List.find?_eq_none] at h
    exact .inr ⟨fun k hk => by simpa using h k (List.mem_range.2 hk), rfl⟩
  | some k =>
    rw [List.find?_range_eq_some] at h
    obtain ⟨h1, h2, h3⟩ := h
    exact .inl ⟨k, List.mem_range.1 h2, h1, fun j hj => by simpa using h3 j hj, rfl⟩

/-- A store at `I`: the bytes land and `I` moves, or a stop (R164, R165). -/
theorem storeAtIndex_cases (bytes : List Byte) (index : Word) :
    ((bytes.length = 0 ∨ s.index.toNat + bytes.length ≤ Config.memSize) ∧
        s.storeAtIndex bytes index =
          .next { s with mem := s.mem.writeBytes s.index.toNat bytes, index := index }) ∨
      ((0 < bytes.length ∧ Config.memSize < s.index.toNat + bytes.length) ∧
        s.storeAtIndex bytes index = .next (s.stopped .addressRange)) := by
  unfold State.storeAtIndex
  rcases memWrite_cases s.mem s.index.toNat bytes with ⟨h, e⟩ | ⟨h, e⟩
  · exact .inl ⟨h, by rw [e]; rfl⟩
  · exact .inr ⟨h, by rw [e]; rfl⟩

/-- The end of a Cycle: the snapshot, unless a stop came first (R60). -/
theorem finish_cases :
    (s.stop = none ∧ s.finish = { s with prev := s.key }) ∨ ((∃ c, s.stop = some c) ∧ s.finish = s) := by
  cases h : s.stop with
  | none => exact .inl ⟨rfl, by simp [State.finish, h, State.snapshot]⟩
  | some c => exact .inr ⟨⟨c, rfl⟩, by simp [State.finish, h]⟩

/-- What an operation can answer (R29, R188, R190, R194). -/
theorem perform_cases (op : HostOp) :
    ((∃ c, s.stop = some c) ∧ perform op s = .fault .operationAfterStop) ∨
      (s.stop = none ∧
        ((∃ key rnd, op = .cycle key rnd ∧
            ((s.halted = true ∧ perform op s = .fault .cycleAfterHalt) ∨
              (s.halted = false ∧ perform op s = cycle { s with key := key, rnd := rnd }))) ∨
          (op = .tick ∧ perform op s = .next (tick s)) ∨
          (op = .clearDirty ∧ perform op s = .next (clearDirty s)))) := by
  cases hs : s.stop with
  | some c => exact .inl ⟨⟨c, rfl⟩, by simp [perform, hs]⟩
  | none =>
    refine .inr ⟨rfl, ?_⟩
    cases op with
    | cycle key rnd =>
      refine .inl ⟨key, rnd, rfl, ?_⟩
      cases hh : s.halted
      · exact .inr ⟨rfl, by simp [perform, hs, hh]⟩
      · exact .inl ⟨rfl, by simp [perform, hs, hh]⟩
    | tick => exact .inr (.inl ⟨rfl, by simp [perform, hs]⟩)
    | clearDirty => exact .inr (.inr ⟨rfl, by simp [perform, hs]⟩)

/-- Taking the host's next operation changes the script and the count of draws only (log 1). -/
theorem takeOp_cases :
    (∃ op rest, s.script = op :: rest ∧ s.takeOp = (op, { s with script := rest })) ∨
      (s.script = [] ∧ s.takeOp = (Config.hostOp s.draws, { s with draws := s.draws + 1 })) := by
  cases h : s.script with
  | nil => exact .inr ⟨rfl, by simp [State.takeOp, h]⟩
  | cons op rest => exact .inl ⟨op, rest, rfl, by simp [State.takeOp, h]⟩

end Sys2Proof.Laws
end

