-- ==== Sys2Proof/Laws/Step.lean ====
section
/-!
SUPPORT. The step by cases: which operation comes next, what a Cycle does with the fetched word, and the bytes of a word.
Proofs about steps cite these and do not unfold `step`, `perform` or `cycle`.
-/

namespace Sys2Proof.Laws

open Sys2Proof.Machine

/-- Taking the next operation keeps the machine's own state. -/
theorem takeOp_keeps (s : State) :
    s.takeOp.2 = { s with script := s.takeOp.2.script, draws := s.takeOp.2.draws } := by
  rcases takeOp_cases s with ⟨op, rest, -, e⟩ | ⟨-, e⟩ <;> rw [e]

/-- A Cycle that is defined is the step. -/
theorem step_of_cycleReady {s u : State} {key : Keys} {rnd : Byte} (h : s.cycleReady key rnd u) : step s = cycle u := by
  obtain ⟨⟨hstop, hhalt⟩, s', ht, rfl⟩ := h
  have hk := takeOp_keeps s
  rw [ht] at hk
  simp only at hk
  have h1 : s'.stop = none := by rw [hk]; exact hstop
  have h2 : s'.halted = false := by rw [hk]; exact hhalt
  simp [step, operate, ht, perform, h1, h2]

/-- The state a defined Cycle runs on is neither stopped nor halted. -/
theorem cycleReady_running {s u : State} {key : Keys} {rnd : Byte} (h : s.cycleReady key rnd u) :
    u.running ∧ u.key = key ∧ u.rnd = rnd ∧
      u = { s with key := key, rnd := rnd, script := u.script, draws := u.draws } := by
  obtain ⟨⟨hstop, hhalt⟩, s', ht, rfl⟩ := h
  have hk := takeOp_keeps s
  rw [ht] at hk
  simp only at hk
  refine ⟨⟨by rw [hk]; exact hstop, by rw [hk]; exact hhalt⟩, rfl, rfl, ?_⟩
  rw [hk]

/-- The word a Cycle fetches at `pc`. -/
def fetchedWord (s : State) : Word := wordOf (s.mem.read s.pc.toNat) (s.mem.read (s.pc.toNat + 1))

/-- What a Cycle can do: stop on the fetch, run the decoded instruction, or report the word (R60). -/
theorem cycle_cases (s : State) :
    (4095 ≤ s.pc.toNat ∧ cycle s = .next (s.stopped .addressRange)) ∨
      (s.pc.toNat < 4095 ∧ (∃ i, decode (fetchedWord s) = .ok i ∧
        cycle s =
          match exec i { s with pc := s.pc + 2, diag := none } with
          | .next t => .next t.finish
          | .fault f => .fault f
          | .refused r => .refused r)) ∨
      (s.pc.toNat < 4095 ∧ (∃ r, decode (fetchedWord s) = .error r) ∧
        cycle s = .next ({ s with pc := s.pc + 2, diag := some (fetchedWord s) } : State).finish) := by
  rcases fetch_cases s with ⟨h, e⟩ | ⟨h, e⟩
  · rcases hd : decode (fetchedWord s) with r | i
    · refine .inr (.inr ⟨h, ⟨r, rfl⟩, ?_⟩)
      unfold cycle
      rw [e]
      simp only [runWord]
      rw [show wordOf (s.mem.read s.pc.toNat) (s.mem.read (s.pc.toNat + 1)) = fetchedWord s from rfl, hd]
      rfl
    · refine .inr (.inl ⟨h, i, rfl, ?_⟩)
      unfold cycle
      rw [e]
      simp only [runWord]
      rw [show wordOf (s.mem.read s.pc.toNat) (s.mem.read (s.pc.toNat + 1)) = fetchedWord s from rfl, hd]
      rfl
  · exact .inl ⟨h, by unfold cycle; rw [e]⟩

/-- The two bytes of a word make the word again (R42). -/
theorem wordOf_bytes (w : Word) : wordOf (w.extractLsb' 8 8) (w.extractLsb' 0 8) = w := by
  refine BitVec.eq_of_getLsbD_eq fun i hi => ?_
  simp only [wordOf, BitVec.getLsbD_append, BitVec.getLsbD_extractLsb']
  interval_cases i <;> simp

/-- A word as a number: 256 times the byte at the lower address, plus the other (R42). -/
theorem wordOf_toNat (hi lo : Byte) : (wordOf hi lo).toNat = 256 * hi.toNat + lo.toNat := by
  rw [wordOf, BitVec.toNat_append, ← Nat.shiftLeft_add_eq_or_of_lt lo.isLt, Nat.shiftLeft_eq]
  omega

/-- A timer counts down by one and is clamped at 0 (R190). -/
theorem countDown_toNat (b : Byte) : (countDown b).toNat = b.toNat - 1 := by
  unfold countDown
  split
  · next h => subst h; rfl
  · next h =>
    have : b.toNat ≠ 0 := fun e => h (BitVec.eq_of_toNat_eq e)
    rw [BitVec.toNat_sub]
    have := b.isLt
    simp
    omega

end Sys2Proof.Laws
end

