-- ==== Sys2Proof/Laws/Exec.lean ====
section
/-!
SUPPORT. The instructions that can stop, by cases (R181, R184), what the shared register operations leave alone, and the
cells of a draw in the terms statements use. Proofs about instructions cite these and do not unfold `exec`.
-/

namespace Sys2Proof.Laws

open Sys2Proof.Machine

variable (s : State)

/-- A skip changes `pc` alone (R88). -/
theorem skipIf_eq (c : Bool) : s.skipIf c = { s with pc := (s.skipIf c).pc } := by cases c <;> rfl

/-- The `pc` after a skip (R88). -/
theorem skipIf_pc_toNat (c : Bool) :
    (s.skipIf c).pc.toNat = if c then (s.pc.toNat + 2) % 65536 else s.pc.toNat := by
  cases c
  · rfl
  · simp [State.skipIf, BitVec.toNat_add]

/-- A logical result changes the registers alone (R103). -/
theorem setLogic_eq (x : Reg) (b : Byte) : s.setLogic x b = { s with v := (s.setLogic x b).v } := by
  unfold State.setLogic; split <;> rfl

/-- `I` after a block transfer as a number (R165, decision D28). -/
theorem blockIndex_toNat (x : Reg) :
    (s.blockIndex x).toNat = if s.q.memory then (s.index.toNat + x.val + 1) % 65536 else s.index.toNat := by
  unfold State.blockIndex
  split
  · simp [BitVec.toNat_add]; omega
  · rfl

/-- A block transfer up to `Vx` moves `x + 1` bytes (R165). -/
theorem firstRegs_block_length (x : Reg) : (s.firstRegs (x.val + 1)).length = x.val + 1 := by simp

/-! ## The instructions that can stop -/

/-- RET (R80). -/
theorem exec_ret_cases :
    (∃ (_ : 0 < s.sp.val) (h : s.sp.val - 1 < 16), stopOf .ret s = none ∧
      exec .ret s = .next { s with pc := s.stack[s.sp.val - 1], sp := ⟨s.sp.val - 1, by omega⟩ }) ∨
      (stopOf .ret s = some .stackUnderflow ∧ exec .ret s = .next (s.stopped .stackUnderflow)) := by
  rcases pop_cases s with ⟨h, h', e⟩ | ⟨h, e⟩
  · exact .inl ⟨h, h', if_neg (by omega), by simp only [exec, execRet, e]; rfl⟩
  · exact .inr ⟨if_pos h, by simp only [exec, execRet, e]; rfl⟩

/-- CALL (R81). -/
theorem exec_call_cases (nnn : Addr) :
    (∃ h : s.sp.val < 16, stopOf (.call nnn) s = none ∧
      exec (.call nnn) s = .next { s with
        pc := addrWord nnn, stack := s.stack.set s.sp.val s.pc h, sp := ⟨s.sp.val + 1, Nat.succ_lt_succ h⟩ }) ∨
      (stopOf (.call nnn) s = some .stackOverflow ∧ exec (.call nnn) s = .next (s.stopped .stackOverflow)) := by
  rcases push_cases s s.pc with ⟨h, e⟩ | ⟨h, e⟩
  · exact .inl ⟨h, if_neg (by omega), by simp only [exec, execCall, e]; rfl⟩
  · exact .inr ⟨if_pos h, by simp only [exec, execCall, e]; rfl⟩

/-- SKP (R141). -/
theorem exec_skp_cases (x : Reg) :
    ((s.reg x).toNat < 16 ∧ stopOf (.skp x) s = none ∧
        exec (.skp x) s = .next (s.skipIf (keyAt s.key (s.reg x).toNat))) ∨
      (stopOf (.skp x) s = some .keyIndex ∧ exec (.skp x) s = .next (s.stopped .keyIndex)) := by
  rcases keyOf_cases s x with ⟨h, e⟩ | ⟨h, e⟩
  · exact .inl ⟨h, if_neg (by omega), by simp only [exec, execSkp, e]; rfl⟩
  · exact .inr ⟨if_pos h, by simp only [exec, execSkp, e]; rfl⟩

/-- SKNP (R142). -/
theorem exec_sknp_cases (x : Reg) :
    ((s.reg x).toNat < 16 ∧ stopOf (.sknp x) s = none ∧
        exec (.sknp x) s = .next (s.skipIf (!keyAt s.key (s.reg x).toNat))) ∨
      (stopOf (.sknp x) s = some .keyIndex ∧ exec (.sknp x) s = .next (s.stopped .keyIndex)) := by
  rcases keyOf_cases s x with ⟨h, e⟩ | ⟨h, e⟩
  · exact .inl ⟨h, if_neg (by omega), by simp only [exec, execSknp, e]; rfl⟩
  · exact .inr ⟨if_pos h, by simp only [exec, execSknp, e]; rfl⟩

/-- The bytes of a sprite are the bytes a draw reads (R121). -/
theorem spriteOf_size_drawBytes (n : Nat) : (spriteOf n s.ext).size = drawBytes s n := by
  unfold spriteOf drawBytes Sprite.size
  by_cases h : n = 0 <;> cases s.ext <;> simp [h]

/-- The bytes of a draw, as read from memory. -/
def spriteBytes (n : Nat) : List Byte := s.mem.readBytes s.index.toNat (spriteOf n s.ext).size

/-- DRW (R121). -/
theorem exec_drw_cases (x y : Reg) (n : Nat) :
    (stopOf (.drw x y n) s = none ∧
        exec (.drw x y n) s =
          .next ((s.redraw (plotAll s.fb (s.targets x y n (spriteBytes s n))).1).setFlag
            (collision (plotAll s.fb (s.targets x y n (spriteBytes s n))).2))) ∨
      (stopOf (.drw x y n) s = some .addressRange ∧ exec (.drw x y n) s = .next (s.stopped .addressRange)) := by
  rcases memRead_cases s.mem s.index.toNat (spriteOf n s.ext).size with ⟨h, e⟩ | ⟨h, e⟩
  · rw [spriteOf_size_drawBytes] at h
    simp only [Config.memSize] at h
    exact .inl ⟨if_neg (by omega), by simp only [exec, execDrw, e]; rfl⟩
  · rw [spriteOf_size_drawBytes] at h
    simp only [Config.memSize] at h
    exact .inr ⟨if_pos (by omega), by simp only [exec, execDrw, e]; rfl⟩

/-- LD B (R164). -/
theorem exec_ldBVx_cases (x : Reg) :
    (s.index.toNat + 3 ≤ 4096 ∧ stopOf (.ldBVx x) s = none ∧
        exec (.ldBVx x) s = .next { s with mem := s.mem.writeBytes s.index.toNat (bcdDigits (s.reg x)) }) ∨
      (stopOf (.ldBVx x) s = some .addressRange ∧ exec (.ldBVx x) s = .next (s.stopped .addressRange)) := by
  rcases storeAtIndex_cases s (bcdDigits (s.reg x)) s.index with ⟨h, e⟩ | ⟨h, e⟩ <;>
    simp [bcdDigits, Config.memSize] at h
  · exact .inl ⟨by omega, if_neg (by omega), e⟩
  · exact .inr ⟨if_pos (by omega), e⟩

/-- LD [I], Vx (R165). -/
theorem exec_ldMemVx_cases (x : Reg) :
    (s.index.toNat + (x.val + 1) ≤ 4096 ∧ stopOf (.ldMemVx x) s = none ∧
        exec (.ldMemVx x) s = .next { s with
          mem := s.mem.writeBytes s.index.toNat (s.firstRegs (x.val + 1)), index := s.blockIndex x }) ∨
      (stopOf (.ldMemVx x) s = some .addressRange ∧ exec (.ldMemVx x) s = .next (s.stopped .addressRange)) := by
  rcases storeAtIndex_cases s (s.firstRegs (x.val + 1)) (s.blockIndex x) with ⟨h, e⟩ | ⟨h, e⟩ <;>
    rw [firstRegs_block_length] at h <;> simp only [Config.memSize] at h
  · exact .inl ⟨by omega, if_neg (by omega), e⟩
  · exact .inr ⟨if_pos h.2, e⟩

/-- LD Vx, [I] (R166). -/
theorem exec_ldVxMem_cases (x : Reg) :
    (s.index.toNat + (x.val + 1) ≤ 4096 ∧ stopOf (.ldVxMem x) s = none ∧
        exec (.ldVxMem x) s =
          .next ((s.setRegs (s.mem.readBytes s.index.toNat (x.val + 1))).setIndex (s.blockIndex x))) ∨
      (stopOf (.ldVxMem x) s = some .addressRange ∧ exec (.ldVxMem x) s = .next (s.stopped .addressRange)) := by
  rcases memRead_cases s.mem s.index.toNat (x.val + 1) with ⟨h, e⟩ | ⟨h, e⟩ <;> simp only [Config.memSize] at h
  · exact .inl ⟨by omega, if_neg (by omega), by simp only [exec, execLdVxMem, e]; rfl⟩
  · exact .inr ⟨if_pos (by omega), by simp only [exec, execLdVxMem, e]; rfl⟩

/-! ## The cells of a draw -/

/-- A bit of a two-byte sprite row, counted from the left (R121 (d), (e)). -/
theorem append_testBit (a b : Byte) {i : Nat} (hi : i < 16) :
    (a ++ b).toNat.testBit (15 - i) = if i < 8 then a.getLsbD (7 - i) else b.getLsbD (15 - i) := by
  rw [BitVec.testBit_toNat, BitVec.getLsbD_append]
  split
  · rw [if_neg (by omega)]
  · rw [if_pos (by omega)]; congr 1; omega

/-- The pixels of the sprite in memory (R121). -/
theorem pixels_drawPixel (n j i : Nat) :
    (j, i) ∈ (spriteOf n s.ext).pixels (spriteBytes s n) ↔ j < drawRows s n ∧ i < drawCols n ∧ drawPixel s n j i = true := by
  have hd : ∀ k, k < (spriteOf n s.ext).size → (spriteBytes s n).getD k 0 = s.mem.read (s.index.toNat + k) :=
    fun k hk => memory_readBytes_getD _ hk
  rw [(pixels_spec (spriteOf n s.ext) (spriteBytes s n)).1]
  by_cases h0 : n = 0
  · subst h0
    cases hx : s.ext
    · simp [spriteOf, drawRows, hx]
    · simp only [hx, spriteOf, drawRows, drawCols, drawPixel, Sprite.bit, Sprite.rowBits, Sprite.size, ne_eq,
        not_true_eq_false, if_false, if_true] at hd ⊢
      refine and_congr_right fun a => and_congr_right fun b => ?_
      rw [if_neg (by decide), hd (2 * j) (by omega), hd (2 * j + 1) (by omega), append_testBit _ _ b]
      simp [Nat.add_assoc]
  · simp only [h0, spriteOf, drawRows, drawCols, drawPixel, Sprite.bit, Sprite.rowBits, Sprite.size, ne_eq,
      not_false_eq_true, if_false, if_true] at hd ⊢
    refine and_congr_right fun a => and_congr_right fun b => ?_
    rw [hd j (by omega), BitVec.testBit_toNat]

/-- Where a pixel lands, as conditions on the cell (R121 (b)). -/
theorem landing_eq_some {clip : Bool} {w h y0 x0 j i r c : Nat} (hy : y0 < h) (hx : x0 < w) :
    landing clip w h y0 x0 (j, i) = some (r, c) ↔
      r < h ∧ c < w ∧
        if clip then r = y0 + j ∧ c = x0 + i else r = (y0 + j) % h ∧ c = (x0 + i) % w := by
  unfold landing
  have h0 : 0 < h := by omega
  have w0 : 0 < w := by omega
  cases clip <;> simp only [Bool.false_eq_true, if_false, if_true] <;> split
  · simp only [Option.some.injEq, Prod.mk.injEq]
    constructor
    · rintro ⟨rfl, rfl⟩; exact ⟨Nat.mod_lt _ h0, Nat.mod_lt _ w0, rfl, rfl⟩
    · rintro ⟨-, -, rfl, rfl⟩; exact ⟨rfl, rfl⟩
  · simp only [Option.some.injEq, Prod.mk.injEq]
    rw [Nat.mod_eq_of_lt (a := y0 + j) (by omega), Nat.mod_eq_of_lt (a := x0 + i) (by omega)]
    constructor
    · rintro ⟨rfl, rfl⟩; exact ⟨by omega, by omega, rfl, rfl⟩
    · rintro ⟨-, -, rfl, rfl⟩; exact ⟨rfl, rfl⟩
  · simp only [reduceCtorEq, false_iff]
    rintro ⟨h1, h2, rfl, rfl⟩; omega
  · simp only [Option.some.injEq, Prod.mk.injEq]
    constructor
    · rintro ⟨rfl, rfl⟩; exact ⟨by omega, by omega, rfl, rfl⟩
    · rintro ⟨-, -, rfl, rfl⟩; exact ⟨rfl, rfl⟩

/-- The cells a draw flips are those of `drawnOn` (R121). -/
theorem mem_targets (x y : Reg) (n r c : Nat) : (r, c) ∈ s.targets x y n (spriteBytes s n) ↔ drawnOn s x y n r c := by
  have hy := Nat.mod_lt (s.reg y).toNat (height_pos s).1
  have hx := Nat.mod_lt (s.reg x).toNat (width_pos s).1
  unfold State.targets drawnOn
  rw [List.mem_filterMap]
  constructor
  · rintro ⟨⟨j, i⟩, hp, hl⟩
    obtain ⟨a, b, c⟩ := (pixels_drawPixel s n j i).1 hp
    exact ⟨j, i, a, b, c, (landing_eq_some hy hx).1 hl⟩
  · rintro ⟨j, i, a, b, c, d⟩
    exact ⟨(j, i), (pixels_drawPixel s n j i).2 ⟨a, b, c⟩, (landing_eq_some hy hx).2 d⟩

end Sys2Proof.Laws
end

