-- ==== Sys2Proof/Laws/Load.lean ====
section
/-!
SUPPORT. The memory image at reset (R201): canonical, and what it reads as at every address.
-/

namespace Sys2Proof.Laws

open Sys2Proof.Machine

variable {small : Vector Byte 80} {big : Vector Byte 160} {rom : List Byte}

/-- The image with the small font alone, and with both fonts, is canonical. -/
theorem memory_smallFont_wf : (Memory.writeBytes [] Config.smallFontBase small.toList).wf :=
  memory_writeBytes_wf memory_nil_wf (by simp [Config.smallFontBase, Config.memSize])

theorem memory_fonts_wf :
    ((Memory.writeBytes [] Config.smallFontBase small.toList).writeBytes Config.bigFontBase big.toList).wf :=
  memory_writeBytes_wf memory_smallFont_wf (by simp [Config.bigFontBase, Config.memSize])

/-- The image with a ROM that fits is canonical. -/
theorem memory_image_wf (h : rom.length ≤ Config.romCapacity) : (Memory.image small big rom).wf :=
  memory_writeBytes_wf memory_fonts_wf (by
    simp only [Config.romCapacity, Config.memSize, Config.programBase] at h ⊢; omega)

/-- The byte at an address of the image: the ROM, the big font, the small font, or what an unlisted address reads as. -/
theorem memory_read_image (h : rom.length ≤ Config.romCapacity) (a : Nat) :
    (Memory.image small big rom).read a =
      if 0x200 ≤ a ∧ a < 0x200 + rom.length then rom.getD (a - 0x200) 0
      else if 0x100 ≤ a ∧ a < 0x1A0 then big.toList.getD (a - 0x100) 0
      else if 0x050 ≤ a ∧ a < 0x0A0 then small.toList.getD (a - 0x050) 0
      else Memory.unlisted a := by
  have hr : Config.programBase + rom.length ≤ Config.memSize := by
    simp only [Config.romCapacity, Config.memSize, Config.programBase] at h ⊢; omega
  unfold Memory.image
  rw [memory_read_writeBytes memory_fonts_wf hr,
    memory_read_writeBytes memory_smallFont_wf (by simp [Config.bigFontBase, Config.memSize]),
    memory_read_writeBytes memory_nil_wf (by simp [Config.smallFontBase, Config.memSize])]
  simp only [Config.programBase, Config.bigFontBase, Config.smallFontBase, Vector.length_toList, Memory.read]

end Sys2Proof.Laws
end

