-- ==== Sys2Proof/Tests/Slice0.lean ====
section
/-!
SUPPORT. The model's own tests. Expected values are those of spec/95_test_vectors.md, derived there from the rules; encodings
are written out from spec/30_encoding.md R63 to R66. Then, for each obligation with hypotheses, a witness that meets them.
-/

namespace Sys2Proof.Tests

set_option Elab.async false

open Sys2Proof.Machine

/-! ## Well-formedness refuses an operand that no encoding holds -/

theorem test_wf_scd_refused : (Instr.scd 16).wf = false := by decide
theorem test_wf_drw_refused : (Instr.drw 0 0 16).wf = false := by decide
theorem test_wf_boundaries_accepted : (Instr.scd 15).wf = true ∧ (Instr.drw 15 15 15).wf = true := by decide

/-! ## Decoding, word by word (R64 to R66) -/

/-- Format FIX and N, class 0. -/
theorem test_decode_class0 :
    decode 0b0000000011100000 = .ok .cls ∧ decode 0b0000000011101110 = .ok .ret ∧
      decode 0b0000000011111011 = .ok .scr ∧ decode 0b0000000011111100 = .ok .scl ∧
      decode 0b0000000011111101 = .ok .exit ∧ decode 0b0000000011111110 = .ok .low ∧
      decode 0b0000000011111111 = .ok .high ∧ decode 0b0000000011001011 = .ok (.scd 11) := by
  decide +kernel

/-- Format NNN: the address is bits 11 to 0. -/
theorem test_decode_nnn :
    decode 0b0001101010111100 = .ok (.jp 0xABC) ∧ decode 0b0010001000010000 = .ok (.call 0x210) ∧
      decode 0b1010111111111110 = .ok (.ldI 0xFFE) ∧ decode 0b1011001011110000 = .ok (.jpOff 0x2F0) := by
  decide +kernel

/-- Format XKK: the register is bits 11 to 8, the immediate bits 7 to 0. -/
theorem test_decode_xkk :
    decode 0b0011111110101010 = .ok (.seImm 15 0xAA) ∧ decode 0b0100101001010101 = .ok (.sneImm 10 0x55) ∧
      decode 0b0110000011101010 = .ok (.ldImm 0 0xEA) ∧ decode 0b0111111100000001 = .ok (.addImm 15 0x01) ∧
      decode 0b1100000100001111 = .ok (.rnd 1 0x0F) := by
  decide +kernel

/-- Formats XY and XYN: `x` is bits 11 to 8, `y` bits 7 to 4. -/
theorem test_decode_xy :
    decode 0b0101000100100000 = .ok (.seReg 1 2) ∧ decode 0b1001101010110000 = .ok (.sneReg 10 11) ∧
      decode 0b1101000100101010 = .ok (.drw 1 2 10) := by
  decide +kernel

/-- Class 8, selected by bits 3 to 0. -/
theorem test_decode_class8 :
    decode 0b1000000100100000 = .ok (.ldReg 1 2) ∧ decode 0b1000000100100001 = .ok (.orReg 1 2) ∧
      decode 0b1000000100100010 = .ok (.andReg 1 2) ∧ decode 0b1000000100100011 = .ok (.xorReg 1 2) ∧
      decode 0b1000000100100100 = .ok (.addReg 1 2) ∧ decode 0b1000000100100101 = .ok (.subReg 1 2) ∧
      decode 0b1000000100100110 = .ok (.shr 1 2) ∧ decode 0b1000000100100111 = .ok (.subn 1 2) ∧
      decode 0b1000000100101110 = .ok (.shl 1 2) := by
  decide +kernel

/-- Classes E and F, selected by bits 7 to 0. -/
theorem test_decode_classEF :
    decode 0b1110000110011110 = .ok (.skp 1) ∧ decode 0b1110111110100001 = .ok (.sknp 15) ∧
      decode 0b1111000000000111 = .ok (.ldVxDt 0) ∧ decode 0b1111001100001010 = .ok (.ldVxK 3) ∧
      decode 0b1111000000010101 = .ok (.ldDtVx 0) ∧ decode 0b1111000000011000 = .ok (.ldStVx 0) ∧
      decode 0b1111000000011110 = .ok (.addIVx 0) := by
  decide +kernel

theorem test_decode_classF :
    decode 0b1111000000101001 = .ok (.ldFVx 0) ∧ decode 0b1111000100110000 = .ok (.ldHfVx 1) ∧
      decode 0b1111000000110011 = .ok (.ldBVx 0) ∧ decode 0b1111001101010101 = .ok (.ldMemVx 3) ∧
      decode 0b1111001001100101 = .ok (.ldVxMem 2) ∧ decode 0b1111001001110101 = .ok (.ldRVx 2) ∧
      decode 0b1111111110000101 = .ok (.ldVxR 15) := by
  decide +kernel

/-- Neighbouring words that match nothing (95_test_vectors 2.2). -/
theorem test_decode_unmatched :
    [0x00E1, 0x0000, 0x00BF, 0x00D0, 0x00FA, 0x0100, 0x0EE0, 0x5121, 0x9ABF, 0x8128, 0x812F, 0x812D, 0xE19F, 0xE0A0, 0xF000,
      0xF166, 0xFF86, 0xF31A].all (fun w : Word => decide (decode w = .error (.unmatched w))) = true := by
  decide +kernel

/-- The fields of a word (95_test_vectors 2.1). -/
theorem test_fields :
    fields 0xD12A = { raw := 0xD12A, nnn := 0x12A, kk := 0x2A, n := 0xA, x := 1, y := 2 } ∧
      fields 0x8AB4 = { raw := 0x8AB4, nnn := 0xAB4, kk := 0xB4, n := 0x4, x := 10, y := 11 } := by
  decide +kernel

/-- The decoder on bytes: the rest is given back, a lone byte is refused. -/
theorem test_decodeBytes :
    decodeBytes [0xD1, 0x2A, 0x00] = .ok (.drw 1 2 10, [0x00]) ∧ decodeBytes [0xD1] = .error .truncated := by
  decide +kernel

/-! ## Small states -/

/-- After reset with the standard profile. -/
def base : State := { State.reset with q := Quirks.chip8, scrollStd := .noop }

/-- The same in extended mode with the extended profile. -/
def wide : State := { State.reset with q := Quirks.superChip, scrollStd := .noop, ext := true }

/-- Some registers set. -/
def regs (s : State) (l : List (Reg × Byte)) : State := l.foldl (fun s p => s.setReg p.1 p.2) s

/-- Some bytes of memory set. -/
def bytes (s : State) (a : Nat) (l : List Byte) : State := { s with mem := s.mem.writeBytes a l }

/-- A framebuffer with some cells lit. -/
def lit (l : List (Nat × Nat)) : Framebuffer := l.foldl (fun fb p => flipCell fb p.1 p.2) blank

/-- A keypad with some keys pressed. -/
def keys (l : List Nat) : Keys := Vector.ofFn fun k : Fin 16 => l.contains k.val

/-- The state after one step that is a transition. -/
def after (s : State) : Option State :=
  match step s with
  | .next t => some t
  | .fault _ => none
  | .refused _ => none

/-- The next operation is a Cycle with the state's own sample and byte. -/
def cycling (s : State) : State := { s with script := [.cycle s.key s.rnd] }

/-- The state after one Cycle that fetches the word. -/
def runs (w : Word) (s : State) : Option State :=
  after ((cycling s).withFetchWord 16 w.toNat)

/-- One register and `VF` after one Cycle that fetches the word. -/
def two (w : Word) (s : State) (r : Reg) : Option (Byte × Byte) := (runs w s).map fun t => (t.reg r, t.reg vF)

/-- The `pc` after one Cycle that fetches the word. -/
def pcOf (w : Word) (s : State) : Option Word := (runs w s).map (·.pc)

/-- `I` after one Cycle that fetches the word. -/
def indexOf (w : Word) (s : State) : Option Word := (runs w s).map (·.index)

/-- The stop after one Cycle that fetches the word. -/
def stopAfter (w : Word) (s : State) : Option (Option StopCause) := (runs w s).map (·.stop)

/-- Some cells after one Cycle that fetches the word, and `dirty`. -/
def cellsOf (w : Word) (s : State) (l : List (Nat × Nat)) : Option (List Bool × Bool) :=
  (runs w s).map fun t => (l.map fun p => cell t.fb p.1 p.2, t.dirty)

/-! ## Control transfer (95_test_vectors 2.3) -/

theorem test_jp : pcOf 0x1ABC base = some 0x0ABC := by decide +kernel
theorem test_call :
    (runs 0x2210 { base with pc := 0x204 }).map (fun t => (t.stack[0], t.sp, t.pc)) = some (0x0206, 1, 0x0210) := by
  decide +kernel
theorem test_call_overflow : stopAfter 0x2200 { base with sp := 16 } = some (some .stackOverflow) := by decide +kernel
theorem test_ret :
    (runs 0x00EE { base with sp := 16, stack := base.stack.set 15 0x0ABD }).map (fun t => (t.sp, t.pc)) =
      some (15, 0x0ABD) := by
  decide +kernel
theorem test_ret_underflow : stopAfter 0x00EE base = some (some .stackUnderflow) := by decide +kernel
theorem test_jpOff_v0 : pcOf 0xB210 (regs base [(0, 0x04), (2, 0x08)]) = some 0x0214 := by decide +kernel
theorem test_jpOff_vx : pcOf 0xB2F0 (regs wide [(0, 0x01), (2, 0x10)]) = some 0x0300 := by decide +kernel
theorem test_seImm : pcOf 0x3FAA (regs base [(15, 0xAA)]) = some 0x0204 := by decide +kernel
theorem test_seImm_not : pcOf 0x3000 { regs base [(0, 1)] with pc := 0x208 } = some 0x020A := by decide +kernel
theorem test_sneImm : pcOf 0x4A55 { regs base [(10, 0x54)] with pc := 0x300 } = some 0x0304 := by decide +kernel
theorem test_sneImm_not : pcOf 0x4A55 { regs base [(10, 0x55)] with pc := 0x300 } = some 0x0302 := by decide +kernel
theorem test_seReg : pcOf 0x5120 (regs base [(1, 7), (2, 7)]) = some 0x0204 := by decide +kernel
theorem test_seReg_not : pcOf 0x5120 (regs base [(1, 7), (2, 8)]) = some 0x0202 := by decide +kernel
theorem test_sneReg : pcOf 0x9120 (regs base [(1, 7), (2, 8)]) = some 0x0204 := by decide +kernel
theorem test_sneReg_same : pcOf 0x9330 base = some 0x0202 := by decide +kernel

/-! ## 8-bit operations (95_test_vectors 2.4) -/

theorem test_ldImm_vf : two 0x6F07 (regs base [(15, 1)]) 15 = some (0x07, 0x07) := by decide +kernel
theorem test_addImm_no_flag : two 0x70FF (regs base [(0, 0x05), (15, 1)]) 0 = some (0x04, 1) := by decide +kernel
theorem test_ldReg : two 0x8120 (regs base [(2, 0x33), (15, 9)]) 1 = some (0x33, 9) := by decide +kernel
theorem test_or_vfReset : two 0x8121 (regs base [(1, 0x0F), (2, 0xF0), (15, 1)]) 1 = some (0xFF, 0) := by decide +kernel
theorem test_or_vf : two 0x8F11 (regs wide [(1, 6), (15, 1)]) 15 = some (0x07, 0x07) := by decide +kernel
theorem test_and_vfReset : two 0x8122 (regs base [(1, 0x3C), (2, 0x0F), (15, 9)]) 1 = some (0x0C, 0) := by decide +kernel
theorem test_xor_no_reset : two 0x8123 (regs wide [(1, 0xFF), (2, 0x0F), (15, 9)]) 1 = some (0xF0, 9) := by decide +kernel
theorem test_xor_self : two 0x8113 (regs base [(1, 0x5A), (15, 7)]) 1 = some (0x00, 0) := by decide +kernel
theorem test_addReg_carry : two 0x8124 (regs base [(1, 0xFF), (2, 0x01)]) 1 = some (0x00, 1) := by decide +kernel
theorem test_addReg_flag_wins : two 0x8F14 (regs base [(15, 3), (1, 4)]) 1 = some (4, 0) := by decide +kernel
theorem test_sub_borrow : two 0x8125 (regs base [(1, 0x10), (2, 0x20)]) 1 = some (0xF0, 0) := by decide +kernel
theorem test_sub_equal : two 0x8125 (regs base [(1, 7), (2, 7)]) 1 = some (0, 1) := by decide +kernel
theorem test_subn : two 0x8127 (regs base [(1, 0x10), (2, 0x20)]) 1 = some (0x10, 1) := by decide +kernel
theorem test_subn_borrow : two 0x8127 (regs base [(1, 0x20), (2, 0x10)]) 1 = some (0xF0, 0) := by decide +kernel
theorem test_shr_vy : two 0x8126 (regs base [(1, 0x05), (2, 0x0A)]) 1 = some (0x05, 0) := by decide +kernel
theorem test_shr_vx : two 0x8126 (regs wide [(1, 0x05), (2, 0x0A)]) 1 = some (0x02, 1) := by decide +kernel
theorem test_shl_vy : two 0x812E (regs base [(1, 0x81), (2, 0x40)]) 1 = some (0x80, 0) := by decide +kernel
theorem test_shl_vx : two 0x812E (regs wide [(1, 0x81), (2, 0x40)]) 1 = some (0x02, 1) := by decide +kernel
theorem test_rnd : two 0xC10F { base with rnd := 0xA7 } 1 = some (0x07, 0) := by decide +kernel
theorem test_rnd_mask_zero : two 0xC100 { base with rnd := 0xFF } 1 = some (0x00, 0) := by decide +kernel

/-! ## Framebuffer (95_test_vectors 2.5) -/

theorem test_cls :
    cellsOf 0x00E0 { base with fb := lit [(0, 0), (63, 127)] } [(0, 0), (63, 127)] = some ([false, false], true) := by
  decide +kernel
/-- Clipped at the corner (P3). -/
theorem test_drw_clipped :
    cellsOf 0xD012 { bytes (regs base [(0, 63), (1, 31)]) 0x20E [0xC0, 0xC0] with index := 0x20E }
      [(31, 63), (31, 0), (0, 63), (31, 64), (32, 63)] = some ([true, false, false, false, false], true) := by
  decide +kernel
/-- A 16 by 16 sprite, wrapped: bit 7 of the first byte and bit 0 of the second. -/
theorem test_drw_large_wrapped :
    cellsOf 0xD010
      { bytes (regs wide [(0, 120), (1, 60)]) 0x300 [0x80, 0x01] with
        index := 0x300, q := { Quirks.superChip with clipping := false } }
      [(60, 120), (60, 7), (60, 121), (61, 120)] = some ([true, true, false, false], true) := by
  decide +kernel
theorem test_drw_collision :
    two 0xD011 { bytes base 0x300 [0xC0] with index := 0x300, fb := lit [(0, 0)] } 1 = some (0, 1) := by
  decide +kernel
theorem test_drw_addressRange : stopAfter 0xD010 { wide with index := 0x0FE1 } = some (some .addressRange) := by
  decide +kernel
theorem test_scd :
    cellsOf 0x00CF { wide with fb := lit [(48, 0), (49, 0), (0, 127)] } [(63, 0), (15, 127), (48, 0), (0, 127)] =
      some ([true, true, false, false], true) := by
  decide +kernel
theorem test_scr :
    cellsOf 0x00FB { wide with fb := lit [(2, 126), (2, 0)] } [(2, 4), (2, 126), (2, 0), (2, 2)] =
      some ([true, false, false, false], true) := by
  decide +kernel
/-- The visible region in standard mode: a pixel that leaves it is lost (R127, `logical`). -/
theorem test_scr_logical :
    cellsOf 0x00FB { base with scrollStd := .logical, fb := lit [(0, 62), (0, 0)] } [(0, 4), (0, 66)] =
      some ([true, false], true) := by
  decide +kernel
theorem test_scl :
    cellsOf 0x00FC { wide with fb := lit [(0, 127), (0, 3), (63, 4)] } [(0, 123), (63, 0), (0, 127)] =
      some ([true, true, false], true) := by
  decide +kernel
theorem test_scl_noop :
    cellsOf 0x00FC { base with fb := lit [(0, 62)] } [(0, 62), (0, 58)] = some ([true, false], false) := by
  decide +kernel
theorem test_low :
    (runs 0x00FE { wide with fb := lit [(50, 100)] }).map (fun t => (t.ext, cell t.fb 50 100, t.dirty)) =
      some (false, false, true) := by
  decide +kernel
theorem test_high :
    (runs 0x00FF { base with fb := lit [(1, 1)] }).map (fun t => (t.ext, cell t.fb 1 1, t.width, t.height)) =
      some (true, false, 128, 64) := by
  decide +kernel

/-! ## Halt, keypad, timers (95_test_vectors 2.6) -/

theorem test_exit :
    (runs 0x00FD { base with pc := 0x20C }).map (fun t => (t.halted, t.pc, t.diag)) = some (true, 0x20E, none) := by
  decide +kernel
theorem test_skp : pcOf 0xE19E { regs base [(1, 0x0A)] with key := keys [10] } = some 0x0204 := by decide +kernel
theorem test_skp_keyIndex : stopAfter 0xE09E (regs base [(0, 0x10)]) = some (some .keyIndex) := by decide +kernel
theorem test_sknp : pcOf 0xE0A1 { regs base [(0, 0x0F)] with key := keys [15] } = some 0x0202 := by decide +kernel
theorem test_sknp_skips : pcOf 0xE1A1 (regs base [(1, 0x0A)]) = some 0x0204 := by decide +kernel
theorem test_wait_lowest :
    (runs 0xF30A { base with key := keys [3, 9] }).map (fun t => (t.reg 3, t.pc, t.prev)) =
      some (0x03, 0x202, keys [3, 9]) := by
  decide +kernel
theorem test_wait_held :
    (runs 0xF30A { base with key := keys [3], prev := keys [3] }).map (fun t => (t.reg 3, t.pc)) = some (0, 0x200) := by
  decide +kernel
theorem test_ldVxDt : two 0xF207 { base with dt := 8 } 2 = some (8, 0) := by decide +kernel
theorem test_ldDtVx : (runs 0xF015 (regs base [(0, 0x0A)])).map (fun t => (t.dt, t.st)) = some (10, 0) := by decide +kernel
theorem test_ldStVx : (runs 0xF018 (regs base [(0, 2)])).map (fun t => (t.st, tone t)) = some (2, true) := by decide +kernel
theorem test_tick :
    (after { base with dt := 2, st := 0, script := [.tick] }).map (fun t => (t.dt, t.st, tone t)) = some (1, 0, false) := by
  decide +kernel
theorem test_tick_halted : (after { base with dt := 1, halted := true, script := [.tick] }).map (·.dt) = some 0 := by
  decide +kernel
theorem test_clearDirty : (after { base with dirty := true, script := [.clearDirty] }).map (·.dirty) = some false := by
  decide +kernel

/-! ## Index register and memory (95_test_vectors 2.7) -/

theorem test_ldI : indexOf 0xA300 base = some 0x0300 := by decide +kernel
theorem test_addI : indexOf 0xF01E { regs base [(0, 5)] with index := 0x0FFE } = some 0x1003 := by decide +kernel
theorem test_addI_wraps : indexOf 0xF01E { regs base [(0, 1)] with index := 0xFFFF } = some 0x0000 := by decide +kernel
theorem test_ldF_not_masked : indexOf 0xF029 (regs base [(0, 0xFF)]) = some 0x054B := by decide +kernel
theorem test_ldHf_masked : indexOf 0xF130 (regs base [(1, 0x12)]) = some 0x0114 := by decide +kernel
theorem test_bcd :
    (runs 0xF033 { regs base [(0, 0xEA)] with index := 0x300 }).map (fun t => (t.mem.readBytes 0x300 3, t.index)) =
      some ([2, 3, 4], 0x300) := by
  decide +kernel
theorem test_bcd_addressRange : stopAfter 0xF033 { base with index := 0x0FFE } = some (some .addressRange) := by
  decide +kernel
theorem test_block_store :
    (runs 0xF355 { regs base [(0, 1), (1, 2), (2, 3), (3, 4)] with index := 0x400 }).map
      (fun t => (t.mem.readBytes 0x400 5, t.index)) = some ([1, 2, 3, 4, 0], 0x404) := by
  decide +kernel
theorem test_block_store_no_advance :
    indexOf 0xF355 { base with index := 0x400, q := { Quirks.chip8 with memory := false } } = some 0x400 := by
  decide +kernel
theorem test_block_load :
    (runs 0xF265 { bytes base 0x300 [2, 3, 4] with index := 0x300 }).map
      (fun t => (t.firstRegs 4, t.index)) = some ([2, 3, 4, 0], 0x303) := by
  decide +kernel
theorem test_block_load_one :
    (runs 0xF065 { bytes (regs wide [(1, 9)]) 0x300 [0x77] with index := 0x300 }).map (fun t => (t.firstRegs 2, t.index)) =
      some ([0x77, 9], 0x300) := by
  decide +kernel
theorem test_rpl_save :
    (runs 0xF275 { regs base [(0, 9), (1, 8), (2, 7), (3, 6)] with rpl := Vector.replicate 8 0xEE }).map
      (fun t => t.rpl.toList.take 4) = some [9, 8, 7, 0xEE] := by
  decide +kernel
theorem test_rpl_load_at_most_eight :
    (runs 0xFF85 { regs base [(8, 0x18)] with rpl := Vector.replicate 8 5 }).map (fun t => (t.reg 7, t.reg 8)) =
      some (5, 0x18) := by
  decide +kernel

/-! ## Memory, fetch and the host (95_test_vectors 2.8, P6, P8) -/

theorem test_fetch_last_word : pcOf 0x00E0 { base with pc := 0x0FFE } = some 0x1000 := by decide +kernel
theorem test_fetch_odd : pcOf 0x00E0 { base with pc := 0x0201 } = some 0x0203 := by decide +kernel
theorem test_fetch_past_memory : (after (cycling { base with pc := 0x0FFF })).map (·.stop) = some (some .addressRange) := by
  decide +kernel
theorem test_unmatched_word :
    (runs 0x5121 { regs base [(1, 1), (2, 1)] with key := keys [4] }).map (fun t => (t.pc, t.diag, t.prev, t.stop)) =
      some (0x202, some 0x5121, keys [4], none) := by
  decide +kernel
theorem test_empty_rom : (after (cycling base)).map (fun t => (t.pc, t.diag)) = some (0x202, some 0x0000) := by decide +kernel
theorem test_font_in_memory : State.reset.mem.readBytes 0x073 5 = [0xF0, 0x10, 0x20, 0x40, 0x40] := by decide +kernel
/-- Writing what an unlisted address reads as removes the entry: equal memories are equal data. -/
theorem test_memory_canonical :
    Memory.write (Memory.write [] 0x300 7) 0x300 0 = [] ∧
      Memory.write (Memory.write [] 0x301 2) 0x300 1 = Memory.write (Memory.write [] 0x300 1) 0x301 2 := by
  decide +kernel
theorem test_rom_too_large :
    (State.resetWith Quirks.chip8 .noop Config.bigFont (List.replicate 3585 1)).isNone = true := by decide +kernel
/-- A program is in memory after reset, whatever the big font (R201). -/
theorem test_rom_loaded (big : Vector Byte 160) :
    (Memory.image Config.smallFont big [0x22, 0x01]).read 0x201 = 0x01 := by
  rw [Laws.memory_read_image (by decide)]; rfl
/-- Another small font than the default one (R200, R203). -/
theorem test_small_font_supplied (big : Vector Byte 160) :
    (Memory.image (Vector.replicate 80 0xAA) big []).read 0x09F = 0xAA := by
  rw [Laws.memory_read_image (by decide)]; rfl
/-- The word of a matched instruction that stops is not reported (R34, R185). -/
theorem test_stop_reports_no_word :
    (runs 0x00EE { base with diag := some 0x5121 }).map (fun t => (t.stop, t.diag)) = some (some .stackUnderflow, none) := by
  decide +kernel

/-! ## Witnesses: for each obligation with hypotheses, inputs that meet them, at the boundaries of its clauses -/

/-- The answer is a next state. -/
def isNext (r : Result) : Bool :=
  match r with
  | .next _ => true
  | .fault _ => false
  | .refused _ => false

theorem next_of_isNext {r : Result} (h : isNext r = true) : ∃ t, r = .next t := by
  cases r with
  | next t => exact ⟨t, rfl⟩
  | fault f => cases h
  | refused f => cases h

/-- A state whose next operation is a Cycle with these keys, and the state that Cycle runs on. -/
def ready : State := { bytes base 0x200 [0x61, 0x2A] with script := [.cycle (keys [3]) 7, .tick] }
def readyCycle : State := { ready with key := keys [3], rnd := 7, script := [.tick] }

theorem ready_cycleReady : ready.cycleReady (keys [3]) 7 readyCycle := ⟨⟨rfl, rfl⟩, _, rfl, rfl⟩

theorem witness_DecodeOfEncode :
    (Instr.drw 15 0 15).wf = true ∧ (Instr.scd 0).wf = true ∧ (Instr.scd 15).wf = true := by decide

theorem witness_EncodeOfDecode : decode 0x00CF = .ok (.scd 15) ∧ decode 0xFF85 = .ok (.ldVxR 15) := by decide +kernel

/-- A JP behind the eight entries of class 0, a SHL behind the others of table A. -/
theorem witness_FirstMatchAndExclusive :
    (∀ p ∈ topRowsZero, (0x1234 : Word) &&& p.mask ≠ p.expect) ∧ (0x1234 : Word) &&& 0xF000 = 0x1000 ∧
      (∀ p ∈ tableA.take 8, (0x812E : Word) &&& p.mask ≠ p.expect) ∧ (0x812E : Word) &&& 0x000F = 0x000E := by
  decide +kernel

/-- LD V1, 0x2A at 0x200. -/
theorem witness_StepRunsDecodedInstruction :
    ready.cycleReady (keys [3]) 7 readyCycle ∧ readyCycle.pc.toNat < 4095 ∧
      decode (readyCycle.mem.read readyCycle.pc.toNat ++ readyCycle.mem.read (readyCycle.pc.toNat + 1)) =
        .ok (.ldImm 1 0x2A) ∧
      ∃ t, exec (.ldImm 1 0x2A) { readyCycle with pc := readyCycle.pc + 2, diag := none } = .next t :=
  ⟨ready_cycleReady, by decide +kernel, by decide +kernel, _, rfl⟩

/-- The word 0000 of the empty ROM. -/
theorem witness_UnmatchedWordIsReportedNoOp :
    ∃ u, State.cycleReady { base with script := [.cycle (keys []) 0] } (keys []) 0 u ∧ u.pc.toNat < 4095 ∧
      ∀ i, decode (u.mem.read u.pc.toNat ++ u.mem.read (u.pc.toNat + 1)) ≠ .ok i := by
  refine ⟨_, ⟨⟨rfl, rfl⟩, _, rfl, rfl⟩, by decide +kernel, fun i h => ?_⟩
  have e : decode ((base.mem.read 0x200 : Byte) ++ (base.mem.read 0x201 : Byte)) = .error (.unmatched 0x0000) := by
    decide +kernel
  exact absurd (e.symm.trans h) (by simp)

theorem witness_FetchBigEndianOrAddressRange :
    ({ base with pc := 4094 } : State).pc.toNat < 4095 ∧
      ∃ u, State.cycleReady { base with pc := 4095, script := [.cycle (keys []) 0] } (keys []) 0 u ∧
        4095 ≤ u.pc.toNat :=
  ⟨by decide, _, ⟨⟨rfl, rfl⟩, _, rfl, rfl⟩, by decide⟩

theorem witness_TickCountsBothTimersDown :
    ({ base with dt := 0, st := 1, script := [.tick] } : State).stop = none ∧
      ({ base with dt := 0, st := 1, script := [.tick] } : State).script = .tick :: [] := ⟨rfl, rfl⟩

theorem witness_ClearDirtyClearsOnlyDirty :
    ({ base with dirty := true, halted := true, script := [.clearDirty] } : State).stop = none ∧
      ({ base with dirty := true, halted := true, script := [.clearDirty] } : State).script = .clearDirty :: [] := ⟨rfl, rfl⟩

/-- A stopped state, and a halted one whose next operation is a Cycle. -/
theorem witness_StepIsStuckExactly :
    ({ base with stop := some .keyIndex } : State).stop ≠ none ∧
      (cycling { base with halted := true }).stop = none ∧ (cycling { base with halted := true }).halted = true ∧
      ∃ key rnd u, (cycling { base with halted := true }).takeOp = (.cycle key rnd, u) :=
  ⟨by decide, rfl, rfl, _, _, _, rfl⟩

theorem witness_ScriptIsTakenInOrder : ready.script = .cycle (keys [3]) 7 :: [.tick] ∧ base.script = [] := ⟨rfl, rfl⟩

theorem witness_PlacedWordIsFetchedNext : ({ base with pc := 0xFFFF, halted := true } : State).mem.wf := Laws.memory_nil_wf

/-- The largest ROM that fits, and one byte more. -/
theorem witness_ResetMemoryImage :
    ¬ 3584 < (List.replicate 3584 (0 : Byte)).length ∧ 3584 < (List.replicate 3585 (0 : Byte)).length := by
  rw [List.length_replicate, List.length_replicate]; decide

theorem witness_InvariantAtReset (small : Vector Byte 80) (big : Vector Byte 160) :
    ∃ s, State.resetWith Quirks.chip8 .noop big [0x22, 0x00] small = some s := ⟨_, if_pos (by decide)⟩

/-- In extended mode with a cell lit that standard mode hides. -/
theorem witness_StepKeepsInvariant :
    (cycling { wide with fb := lit [(63, 127)] }).inv ∧ ∃ t, step (cycling { wide with fb := lit [(63, 127)] }) = .next t :=
  ⟨⟨Laws.memory_nil_wf, fun _ h => (by cases h)⟩, next_of_isNext (by decide +kernel)⟩

theorem witness_OneByteAccesses : Memory.wf [] ∧ (4096 ≤ 4096) ∧ 4095 < 4096 ∧ 4095 ≠ 4094 :=
  ⟨Laws.memory_nil_wf, by decide, by decide, by decide⟩

theorem witness_StoredWordIsFetched :
    ∃ t, exec (.ldMemVx 1) { base with index := 0x0FFE } = .next t ∧
      ({ t with pc := 0x0FFE } : State).mem = t.mem ∧ ({ t with pc := 0x0FFE } : State).pc = 0x0FFE ∧
      ({ base with index := 0x0FFE } : State).mem.wf ∧ 1 ≤ (1 : Reg).val ∧ (0x0FFE : Word).toNat + (1 : Reg).val < 4096 := by
  obtain ⟨t, h⟩ := next_of_isNext (r := exec (.ldMemVx 1) { base with index := 0x0FFE }) (by decide +kernel)
  exact ⟨t, h, rfl, rfl, Laws.memory_nil_wf, by decide, by decide⟩

theorem witness_JumpsSetPc :
    base.q.jump = false ∧ wide.q.jump = true ∧ (15 : Reg).val = (0xFFF : Addr).toNat / 256 ∧
      (0 : Reg).val = (0x0FF : Addr).toNat / 256 := by decide

theorem witness_CallPushesAndJumps :
    ({ base with sp := 15 } : State).sp.val < 16 ∧ ({ base with sp := 16 } : State).sp.val = 16 := by decide

theorem witness_ReturnPopsIntoPc :
    ({ base with sp := 16 } : State).sp.val = 15 + 1 ∧ ({ base with sp := 1 } : State).sp.val = 0 + 1 ∧
      base.sp.val = 0 := by decide

theorem witness_CallThenReturnRestores :
    ({ base with sp := 15 } : State).sp.val < 16 ∧ ∃ t, exec (.call 0xFFF) { base with sp := 15 } = .next t ∧ t.sp = t.sp :=
  ⟨by decide, _, rfl, rfl⟩

/-- With and without `vfReset`, with the destination `VF` and with another. -/
theorem witness_LogicAndItsFlag :
    base.q.vfReset = true ∧ wide.q.vfReset = false ∧ (0 : Reg) ≠ vF ∧ (15 : Reg) = vF ∧
      ((Instr.andReg 15 0 = .orReg 15 0 ∧ (0 : Byte) = base.reg 15 ||| base.reg 0) ∨
        (Instr.andReg 15 0 = .andReg 15 0 ∧ (0 : Byte) = base.reg 15 &&& base.reg 0) ∨
          (Instr.andReg 15 0 = .xorReg 15 0 ∧ (0 : Byte) = base.reg 15 ^^^ base.reg 0)) := by decide +kernel

theorem witness_SubtractAndNotBorrow :
    (Instr.subn 15 1 = .subReg 15 1 ∧ 9 = ((regs base [(1, 9)]).reg 15).toNat ∧ 0 = ((regs base [(1, 9)]).reg 1).toNat) ∨
      (Instr.subn 15 1 = .subn 15 1 ∧ 9 = ((regs base [(1, 9)]).reg 1).toNat ∧ 0 = ((regs base [(1, 9)]).reg 15).toNat) := by
  decide +kernel

theorem witness_ShiftsAndTheBitMovedOut :
    255 = (if (regs base [(2, 255)]).q.shift = true then (regs base [(2, 255)]).reg 1
      else (regs base [(2, 255)]).reg 2).toNat ∧
    255 = (if (regs wide [(1, 255)]).q.shift = true then (regs wide [(1, 255)]).reg 1
      else (regs wide [(1, 255)]).reg 2).toNat := by
  decide +kernel

theorem witness_ResolutionSwitch :
    ((Instr.low = .low ∧ false = false) ∨ (Instr.low = .high ∧ false = true)) ∧
      ((Instr.high = .low ∧ true = false) ∨ (Instr.high = .high ∧ true = true)) := by decide

/-- Fifteen rows up to the last byte of memory, nothing for height 0 in standard mode, 32 bytes in extended mode. -/
theorem witness_DrawFlipsItsCells :
    15 ≤ 15 ∧ ({ base with index := 0xFF1 } : State).index.toNat + drawBytes { base with index := 0xFF1 } 15 = 4096 ∧
      drawBytes { base with index := 0xFFFF } 0 = 0 ∧
      ({ wide with index := 0xFE0 } : State).index.toNat + drawBytes { wide with index := 0xFE0 } 0 = 4096 := by decide

/-- The corner pixel of a one-row sprite lands on its cell; the neighbour's pixel is 0. -/
theorem witness_DrawFlipsItsCells_cells :
    drawnOn { bytes base 0x300 [0x80] with index := 0x300 } 0 0 1 0 0 ∧
      ¬ drawnOn { bytes base 0x300 [0x80] with index := 0x300 } 0 0 1 1 0 := by
  constructor
  · exact ⟨0, 0, by decide, by decide, by decide +kernel, by decide, by decide, by decide +kernel⟩
  · rintro ⟨j, i, hj, -, -, -, -, h⟩
    simp only [drawRows, if_neg (show ¬ (1 : Nat) = 0 by decide)] at hj
    have : j = 0 := by omega
    subst this
    exact absurd h.1 (by decide +kernel)

theorem witness_DrawTwiceRestores :
    15 ≤ 15 ∧ (14 : Reg) ≠ vF ∧ (0 : Reg) ≠ vF ∧
      ({ base with index := 0xFF1 } : State).index.toNat + drawBytes { base with index := 0xFF1 } 15 ≤ 4096 := by decide

/-- The three scrolls, and the three regions. -/
theorem witness_ScrollsMoveTheRegion :
    (∃ n, n ≤ 15 ∧ Instr.scd 15 = .scd n ∧ 15 = n ∧ (0 : Int) = 0) ∧
      (Instr.scr = .scr ∧ 0 = 0 ∧ (4 : Int) = 4) ∧ (Instr.scl = .scl ∧ 0 = 0 ∧ (-4 : Int) = -4) ∧
      wide.ext = true ∧ base.ext = false ∧ base.scrollStd = .noop ∧
      ({ base with scrollStd := .logical } : State).scrollStd = .logical ∧
      ({ base with scrollStd := .full } : State).scrollStd = .full ∧ 63 + 0 = 63 ∧ (123 : Int) + 4 = 127 :=
  ⟨⟨15, by decide⟩, by decide⟩

theorem witness_KeySkips :
    ((regs base [(2, 15)]).reg 2).toNat = 15 ∧ 16 ≤ ((regs base [(2, 16)]).reg 2).toNat := by decide +kernel

/-- A press of key 15 and no key below it, no edge at all, and a release of key 0. -/
theorem witness_WaitForKey :
    false = (!base.q.press) ∧ (keys [])[15] = false ∧ (keys [15])[15] = !false ∧
      (∀ j : Fin 15, ¬ ((keys [])[j.val] = false ∧ (keys [15])[j.val] = !false)) ∧
      (∀ j : Fin 16, ¬ ((keys [3])[j.val] = false ∧ (keys [3])[j.val] = !false)) ∧
      true = (!({ Quirks.chip8 with press := false } : Quirks).press) ∧ (keys [0])[0] = true ∧ (keys [])[0] = !true := by
  decide +kernel

theorem witness_BcdStoresThreeDigits :
    base.mem.wf ∧ ({ base with index := 0xFFD } : State).index.toNat + 2 < 4096 ∧
      4096 ≤ ({ base with index := 0xFFE } : State).index.toNat + 2 := ⟨Laws.memory_nil_wf, by decide, by decide⟩

/-- All sixteen registers up to the last byte, and one byte too far. -/
theorem witness_BlockStore :
    base.mem.wf ∧ ({ base with index := 0xFF0 } : State).index.toNat + (15 : Reg).val < 4096 ∧
      4096 ≤ ({ base with index := 0xFF1 } : State).index.toNat + (15 : Reg).val :=
  ⟨Laws.memory_nil_wf, by decide, by decide⟩

theorem witness_BlockLoad :
    ({ base with index := 0xFFF } : State).index.toNat + (0 : Reg).val < 4096 ∧
      4096 ≤ ({ base with index := 0x1000 } : State).index.toNat + (0 : Reg).val ∧
      (0 : Reg).val < (1 : Reg).val := by decide

theorem witness_InstructionsStopExactlyWhereListed :
    (Instr.call 0).wf = true ∧ stopOf (.call 0) { base with sp := 16 } = some .stackOverflow ∧
      stopOf (.call 0) { base with sp := 15 } = none := by decide

/-- A load into the register beside `VF`. -/
theorem witness_OthersLeaveFlagAlone :
    ∃ t, exec (.ldImm 14 7) base = .next t ∧ stopOf (.ldImm 14 7) base = none ∧ ¬ writesFlag base.q (.ldImm 14 7) :=
  ⟨_, rfl, rfl, by simp [writesFlag, vF]⟩

theorem witness_CallStackHasItsWriters :
    ∃ t, exec .cls base = .next t ∧ stopOf .cls base = none ∧ (∀ nnn, Instr.cls ≠ .call nnn) ∧ Instr.cls ≠ .ret :=
  ⟨_, rfl, rfl, fun _ h => (by cases h), fun h => (by cases h)⟩

theorem witness_TimersHaveTheirWriters :
    ∃ t, exec (.ldDtVx 1) base = .next t ∧ stopOf (.ldDtVx 1) base = none ∧ ∀ x, Instr.ldDtVx 1 ≠ .ldStVx x :=
  ⟨_, rfl, rfl, fun _ h => (by cases h)⟩

theorem witness_PlacesHaveTheirWriters :
    ∃ t, exec (.ldI 7) { base with dirty := true, halted := true } = .next t ∧
      stopOf (.ldI 7) { base with dirty := true, halted := true } = none ∧ (∀ x, Instr.ldI 7 ≠ .ldBVx x) ∧
      (∀ x, Instr.ldI 7 ≠ .ldMemVx x) ∧ (∀ x, Instr.ldI 7 ≠ .ldRVx x) ∧ ¬ isDisplay (.ldI 7) ∧ Instr.ldI 7 ≠ .low ∧
      Instr.ldI 7 ≠ .high ∧ Instr.ldI 7 ≠ .exit :=
  ⟨_, rfl, rfl, fun _ h => (by cases h), fun _ h => (by cases h), fun _ h => (by cases h), fun h => h,
    fun h => (by cases h), fun h => (by cases h), fun h => (by cases h)⟩

theorem witness_InputsReachOnlyTheirReaders :
    ∃ t, exec (.jp 7) base = .next t ∧ stopOf (.jp 7) base = none ∧ (∀ x kk, Instr.jp 7 ≠ .rnd x kk) ∧
      ¬ readsKeypad (.jp 7) :=
  ⟨_, rfl, rfl, fun _ _ h => (by cases h), fun h => h⟩

theorem witness_HaltIsPermanent :
    ({ base with halted := true, script := [.tick] } : State).halted = true ∧
      ∃ t, step { base with halted := true, script := [.tick] } = .next t := ⟨rfl, _, rfl⟩

theorem witness_ParametersAreConstant : ∃ t, step (cycling base) = .next t := next_of_isNext (by decide +kernel)

/-- A completed Cycle, and a Tick. -/
theorem witness_SnapshotIsTheCyclesSample :
    (∃ t, step ready = .next t ∧ t.stop = none) ∧ (∃ u, ready.takeOp = (.cycle (keys [3]) 7, u)) ∧
      (∃ t, step { base with script := [.tick] } = .next t ∧ t.stop = none) ∧
      ∀ key rnd u, ({ base with script := [.tick] } : State).takeOp ≠ (.cycle key rnd, u) := by
  refine ⟨?_, ⟨_, rfl⟩, ⟨_, rfl, rfl⟩, fun _ _ _ h => (by cases h)⟩
  have h : (after ready).map (·.stop) = some none := by decide +kernel
  unfold after at h
  split at h
  · next t e => exact ⟨t, e, by simpa using h⟩
  · cases h
  · cases h

theorem witness_StopCodes :
    base.stop = none ∧ ({ base with stop := some .stackOverflow } : State).stop = some .stackOverflow ∧
      ({ base with stop := some .stackUnderflow } : State).stop = some .stackUnderflow ∧
      ({ base with stop := some .addressRange } : State).stop = some .addressRange ∧
      ({ base with stop := some .keyIndex } : State).stop = some .keyIndex := ⟨rfl, rfl, rfl, rfl, rfl⟩

end Sys2Proof.Tests
end

section
/-!
PROOFS. The state family (spec/10_state.md): what an instruction may write, what a step can do, and the statements about single
fields, the inputs, reset and the invariant that follow.
-/

namespace Sys2Proof.Proofs

open Sys2Proof.Machine Sys2Proof.Laws

/-! ## What an instruction may write -/

/-- `s` with the fields that a completed `i` may write taken from `t` (R10 to R27, R40). Everything else is the frame. -/
def written (i : Instr) (s t : State) : State :=
  match i with
  | .cls | .scr | .scl | .scd _ => { s with fb := t.fb, dirty := t.dirty }
  | .low | .high => { s with fb := t.fb, dirty := t.dirty, ext := t.ext }
  | .drw _ _ _ => { s with v := t.v, fb := t.fb, dirty := t.dirty }
  | .exit => { s with halted := t.halted }
  | .ret => { s with pc := t.pc, sp := t.sp }
  | .call _ => { s with pc := t.pc, sp := t.sp, stack := t.stack }
  | .jp _ | .jpOff _ | .seImm _ _ | .sneImm _ _ | .seReg _ _ | .sneReg _ _ | .skp _ | .sknp _ => { s with pc := t.pc }
  | .ldImm _ _ | .addImm _ _ | .ldReg _ _ | .orReg _ _ | .andReg _ _ | .xorReg _ _ | .addReg _ _ | .subReg _ _ | .shr _ _
  | .subn _ _ | .shl _ _ | .rnd _ _ | .ldVxDt _ | .ldVxR _ => { s with v := t.v }
  | .ldVxK _ => { s with v := t.v, pc := t.pc }
  | .ldDtVx _ => { s with dt := t.dt }
  | .ldStVx _ => { s with st := t.st }
  | .ldI _ | .addIVx _ | .ldFVx _ | .ldHfVx _ => { s with index := t.index }
  | .ldBVx _ => { s with mem := t.mem }
  | .ldMemVx _ => { s with mem := t.mem, index := t.index }
  | .ldVxMem _ => { s with v := t.v, index := t.index }
  | .ldRVx _ => { s with rpl := t.rpl }

/-- Wait-for-key stores the key it found, or goes back to itself (R143). -/
theorem exec_ldVxK_cases (x : Reg) (s : State) :
    (∃ k, exec (.ldVxK x) s = .next (s.setReg x (BitVec.ofNat 8 k))) ∨ exec (.ldVxK x) s = .next s.rewind := by
  rcases firstEdge_cases s with ⟨k, -, -, -, e⟩ | ⟨-, e⟩
  · exact .inl ⟨k, by simp only [exec, execLdVxK, e]⟩
  · exact .inr (by simp only [exec, execLdVxK, e])

/-- An instruction stops the machine with its listed cause, or completes and writes only its own fields (R181, R184). -/
theorem exec_cases (i : Instr) (s : State) :
    (∃ c, stopOf i s = some c ∧ exec i s = .next (s.stopped c)) ∨
      (stopOf i s = none ∧ ∃ t, exec i s = .next t ∧ t = written i s t) := by
  cases i with
  | ret => exact (exec_ret_cases s).symm.imp (fun h => ⟨_, h⟩) fun ⟨_, _, h, e⟩ => ⟨h, _, e, rfl⟩
  | call nnn => exact (exec_call_cases s nnn).symm.imp (fun h => ⟨_, h⟩) fun ⟨_, h, e⟩ => ⟨h, _, e, rfl⟩
  | skp x => exact (exec_skp_cases s x).symm.imp (fun h => ⟨_, h⟩) fun ⟨_, h, e⟩ => ⟨h, _, e, skipIf_eq s _⟩
  | sknp x => exact (exec_sknp_cases s x).symm.imp (fun h => ⟨_, h⟩) fun ⟨_, h, e⟩ => ⟨h, _, e, skipIf_eq s _⟩
  | drw x y n => exact (exec_drw_cases s x y n).symm.imp (fun h => ⟨_, h⟩) fun ⟨h, e⟩ => ⟨h, _, e, rfl⟩
  | ldBVx x => exact (exec_ldBVx_cases s x).symm.imp (fun h => ⟨_, h⟩) fun ⟨_, h, e⟩ => ⟨h, _, e, rfl⟩
  | ldMemVx x => exact (exec_ldMemVx_cases s x).symm.imp (fun h => ⟨_, h⟩) fun ⟨_, h, e⟩ => ⟨h, _, e, rfl⟩
  | ldVxMem x => exact (exec_ldVxMem_cases s x).symm.imp (fun h => ⟨_, h⟩) fun ⟨_, h, e⟩ => ⟨h, _, e, rfl⟩
  | ldVxK x => exact .inr (by rcases exec_ldVxK_cases x s with ⟨k, e⟩ | e <;> exact ⟨rfl, _, e, rfl⟩)
  | seImm _ _ | sneImm _ _ | seReg _ _ | sneReg _ _ => exact .inr ⟨rfl, _, rfl, skipIf_eq s _⟩
  | orReg _ _ | andReg _ _ | xorReg _ _ => exact .inr ⟨rfl, _, rfl, setLogic_eq s _ _⟩
  | _ => exact .inr ⟨rfl, _, rfl, rfl⟩

/-- Without its listed condition an instruction does not take the stopping side of its cases. -/
theorem not_stops {i : Instr} {s : State} {c : StopCause} {P : Prop} (hs : stopOf i s = none) :
    ¬ (stopOf i s = some c ∧ P) := by
  rintro ⟨hc, -⟩
  cases hs.symm.trans hc

/-- A completed instruction leaves every field outside `written` as it was. -/
theorem exec_frame {i : Instr} {s t : State} (h : exec i s = .next t) (hs : stopOf i s = none) : t = written i s t := by
  rcases exec_cases i s with ⟨c, hc, -⟩ | ⟨-, u, e, hu⟩
  · cases hs.symm.trans hc
  · cases h.symm.trans e
    exact hu

/-- No instruction, stop included, writes the parameters or the inputs of the Cycle (R24, R28, R30, R127). -/
theorem exec_keeps_parameters_and_inputs {i : Instr} {s t : State} (h : exec i s = .next t) :
    t.q = s.q ∧ t.scrollStd = s.scrollStd ∧ t.key = s.key ∧ t.rnd = s.rnd := by
  rcases exec_cases i s with ⟨c, -, e⟩ | ⟨-, u, e, hu⟩ <;> cases h.symm.trans e
  · exact ⟨rfl, rfl, rfl, rfl⟩
  · rw [hu]
    cases i <;> exact ⟨rfl, rfl, rfl, rfl⟩

/-! ## What a step can do -/

/-- Taking the host's operation off the script leaves the machine as it was (log 1). -/
theorem takeOp_frame {s u : State} {op : HostOp} (h : s.takeOp = (op, u)) :
    u = { s with script := u.script, draws := u.draws } := by
  simpa only [h] using takeOp_keeps s

/-- A step that is a transition: no stop came before it, and it is a Cycle on a running machine, a Tick or a ClearDirty
(R29, R188, R190, R194). -/
theorem step_next_cases {s t : State} (h : step s = .next t) :
    s.stop = none ∧
      ((∃ key rnd u, s.cycleReady key rnd u ∧ cycle u = .next t) ∨
        (∃ u, s.takeOp = (.tick, u) ∧ t = tick u) ∨
        (∃ u, s.takeOp = (.clearDirty, u) ∧ t = clearDirty u)) := by
  obtain ⟨op, u, ht⟩ : ∃ op u, s.takeOp = (op, u) := ⟨_, _, rfl⟩
  have hp : perform op u = .next t := by rw [← h]; simp only [step, operate, ht]
  have stop_eq : u.stop = s.stop := by rw [takeOp_frame ht]
  have halted_eq : u.halted = s.halted := by rw [takeOp_frame ht]
  rcases perform_cases u op with ⟨-, e⟩ | ⟨hs, ⟨key, rnd, rfl, ⟨-, e⟩ | ⟨hh, e⟩⟩ | ⟨rfl, e⟩ | ⟨rfl, e⟩⟩
  · cases hp.symm.trans e
  · cases hp.symm.trans e
  · exact ⟨stop_eq ▸ hs, .inl ⟨key, rnd, _, ⟨⟨stop_eq ▸ hs, halted_eq ▸ hh⟩, u, ht, rfl⟩, e ▸ hp⟩⟩
  · cases hp.symm.trans e
    exact ⟨stop_eq ▸ hs, .inr (.inl ⟨u, ht, rfl⟩)⟩
  · cases hp.symm.trans e
    exact ⟨stop_eq ▸ hs, .inr (.inr ⟨u, ht, rfl⟩)⟩

/-- A Cycle stops on the fetch, or it finishes its instruction, or it finishes the report of an unmatched word (R60). -/
theorem cycle_next_cases {s t : State} (h : cycle s = .next t) :
    t = s.stopped .addressRange ∨
      (∃ i u, exec i { s with pc := s.pc + 2, diag := none } = .next u ∧ t = u.finish) ∨
      ∃ w, t = ({ s with pc := s.pc + 2, diag := some w } : State).finish := by
  rcases cycle_cases s with ⟨-, e⟩ | ⟨-, ⟨i, -, e⟩⟩ | ⟨-, -, e⟩
  · cases h.symm.trans e
    exact .inl rfl
  · rw [h] at e
    split at e
    · next u hu =>
      cases e
      exact .inr (.inl ⟨i, u, hu, rfl⟩)
    · cases e
    · cases e
  · cases h.symm.trans e
    exact .inr (.inr ⟨_, rfl⟩)

/-- A finished state with no stop holds its own sample in `prev` (R25). -/
theorem finish_prev {s : State} (h : s.finish.stop = none) : s.finish.prev = s.key := by
  rcases finish_cases s with ⟨-, e⟩ | ⟨⟨c, hc⟩, e⟩ <;> rw [e] at h ⊢
  cases h.symm.trans hc

/-- A Cycle that does not stop leaves the sample it ran on in `prev` (R25, R60). -/
theorem cycle_prev {s t : State} (h : cycle s = .next t) (ht : t.stop = none) : t.prev = s.key := by
  rcases cycle_next_cases h with rfl | ⟨i, u, hu, rfl⟩ | ⟨w, rfl⟩
  · cases ht
  · obtain ⟨-, -, key_kept, -⟩ := exec_keeps_parameters_and_inputs hu
    exact (finish_prev ht).trans key_kept
  · exact finish_prev ht

/-- The fields that a step writes outside of its instruction and of a stop: the host's inputs and script, the timers and
`dirty` by Tick and ClearDirty, and `pc`, `prev` and `diag` by the Cycle (R21, R29, R60, R190). -/
def writtenOutside (s t : State) : State :=
  { s with
    pc := t.pc, dirty := t.dirty, dt := t.dt, st := t.st, prev := t.prev, key := t.key, rnd := t.rnd, diag := t.diag
    script := t.script, draws := t.draws }

/-- The end of a Cycle writes `prev` alone (R60). -/
theorem finish_writtenOutside (s : State) : s.finish = writtenOutside s s.finish := by
  rcases finish_cases s with ⟨-, e⟩ | ⟨-, e⟩ <;> rw [e] <;> rfl

/-- What the fields of `writtenOutside`, a stop and every instruction keep, a step keeps. -/
theorem step_keeps {P : State → Prop} (outer : ∀ s t, t = writtenOutside s t → P s → P t)
    (stop : ∀ s c, P s → P (s.stopped c)) (instr : ∀ i s t, exec i s = .next t → P s → P t) {s t : State}
    (h : step s = .next t) (hs : P s) : P t := by
  obtain ⟨-, ⟨key, rnd, u, hr, hc⟩ | ⟨u, ht, rfl⟩ | ⟨u, ht, rfl⟩⟩ := step_next_cases h
  · obtain ⟨-, -, -, frame⟩ := cycleReady_running hr
    have hu : P u := outer s u (by rw [frame]; rfl) hs
    rcases cycle_next_cases hc with rfl | ⟨i, v, hv, rfl⟩ | ⟨w, rfl⟩
    · exact stop u _ hu
    · exact outer v _ (finish_writtenOutside v) (instr i _ v hv (outer u _ rfl hu))
    · exact outer _ _ (finish_writtenOutside _) (outer u _ rfl hu)
  · exact outer s _ (by rw [takeOp_frame ht]; rfl) hs
  · exact outer s _ (by rw [takeOp_frame ht]; rfl) hs

/-! ## The invariant -/

/-- A store keeps memory canonical, and every other instruction keeps memory or stops the machine. -/
theorem exec_keeps_mem_wf {i : Instr} {s t : State} (hm : s.mem.wf) (h : exec i s = .next t) : t.mem.wf := by
  rcases exec_cases i s with ⟨c, -, e⟩ | ⟨hs, u, e, hu⟩ <;> cases h.symm.trans e
  · exact stopped_mem_wf s c
  · cases i with
    | ldBVx x =>
      obtain ⟨hr, -, e'⟩ := (exec_ldBVx_cases s x).resolve_right (not_stops hs)
      cases e.symm.trans e'
      exact memory_writeBytes_wf hm hr
    | ldMemVx x =>
      obtain ⟨hr, -, e'⟩ := (exec_ldMemVx_cases s x).resolve_right (not_stops hs)
      cases e.symm.trans e'
      exact memory_writeBytes_wf hm (by rwa [firstRegs_block_length])
    | _ => rw [hu]; exact hm

/-- R20 speaks of the framebuffer, the mode, the latch and the scroll setting alone. -/
theorem hiddenCellsClear_congr {s t : State} (h : s.hiddenCellsClear) (hfb : t.fb = s.fb) (hext : t.ext = s.ext)
    (hstop : t.stop = s.stop) (hsc : t.scrollStd = s.scrollStd) : t.hiddenCellsClear := by
  unfold State.hiddenCellsClear at h ⊢
  rwa [hfb, hext, hstop, hsc]

/-- R20 says nothing of a stopped machine (R188). -/
theorem hiddenCellsClear_stopped (s : State) (c : StopCause) : (s.stopped c).hiddenCellsClear := by
  intro hstop
  cases hstop

/-- A blank grid meets R20. -/
theorem hiddenCellsClear_of_blank {s : State} (h : s.fb = blank) : s.hiddenCellsClear := by
  intro _ _ _ r c _
  rw [h, cell_blank]

/-- A draw flips visible cells only (R20, R121). -/
theorem hiddenCellsClear_of_draw {s t : State} (x y : Reg) (n : Nat) (bytes : List Byte) (h : s.hiddenCellsClear)
    (hfb : t.fb = (plotAll s.fb (s.targets x y n bytes)).1) (hext : t.ext = s.ext) (hstop : t.stop = s.stop)
    (hsc : t.scrollStd = s.scrollStd) : t.hiddenCellsClear := by
  intro h1 h2 h3 r c hrc
  rw [hext] at h2
  have visible : s.height ≤ r ∨ s.width ≤ c := by simpa [State.height, State.width, h2] using hrc
  rw [hfb, plotAll_outside s x y n bytes visible]
  exact h (hstop ▸ h1) h2 (hsc ▸ h3) r c hrc

/-- A scroll in standard mode, with `SCROLL_STD` not full, acts on visible cells only (R20, R127). -/
theorem hiddenCellsClear_scroll {s : State} (f : Nat → Nat → Nat → Bool) (h : s.hiddenCellsClear) :
    (s.scroll f).hiddenCellsClear := by
  intro h1 h2 h3 r c hrc
  simp only [scroll_stop, scroll_ext, scroll_scrollStd] at h1 h2 h3
  by_cases grid : r < 64 ∧ c < 128
  · rw [cell_scroll s f grid.1 grid.2]
    rcases scrollRegion_cases s with ⟨he, -⟩ | ⟨-, -, e⟩ | ⟨-, -, e⟩ | ⟨-, hf, -⟩
    · cases he.symm.trans h2
    · rw [e]
      exact h h1 h2 h3 r c hrc
    · rw [e]
      exact (if_neg (by omega)).trans (h h1 h2 h3 r c hrc)
    · exact absurd hf h3
  · exact cell_outside _ grid

/-- Every instruction keeps R20. -/
theorem exec_keeps_hiddenCellsClear {i : Instr} {s t : State} (hc : s.hiddenCellsClear) (h : exec i s = .next t) :
    t.hiddenCellsClear := by
  rcases exec_cases i s with ⟨c, -, e⟩ | ⟨hs, u, e, hu⟩ <;> cases h.symm.trans e
  · exact hiddenCellsClear_stopped s c
  · cases i with
    | cls | low | high => cases e; exact hiddenCellsClear_of_blank rfl
    | scr | scl | scd _ => cases e; exact hiddenCellsClear_scroll _ hc
    | drw x y n =>
      obtain ⟨-, e'⟩ := (exec_drw_cases s x y n).resolve_right (not_stops hs)
      cases e.symm.trans e'
      exact hiddenCellsClear_of_draw x y n _ hc rfl rfl rfl rfl
    | _ => rw [hu]; exact hiddenCellsClear_congr hc rfl rfl rfl rfl

/-- Settles O18: the writes outside instructions do not touch what the invariant speaks of, a stop leaves canonical memory
and is exempt from R20, and every instruction keeps both parts. -/
theorem stepKeepsInvariant : Obligations.StepKeepsInvariant := by
  intro s t hs h
  refine step_keeps (P := State.inv) ?_ ?_ ?_ h hs
  · intro s t frame hs
    rw [frame]
    exact hs
  · exact fun s c _ => ⟨stopped_mem_wf s c, hiddenCellsClear_stopped s c⟩
  · exact fun i s t h ⟨hm, hc⟩ => ⟨exec_keeps_mem_wf hm h, exec_keeps_hiddenCellsClear hc h⟩

/-- Settles O17: at reset memory is the image of R201 and the grid is blank. -/
theorem invariantAtReset : Obligations.InvariantAtReset := by
  refine ⟨⟨memory_nil_wf, hiddenCellsClear_of_blank rfl⟩, ?_⟩
  intro q sc small big rom s h
  unfold State.resetWith at h
  split at h
  · next fits =>
    cases h
    exact ⟨memory_image_wf fits, hiddenCellsClear_of_blank rfl⟩
  · cases h

/-- Settles O56: the parameters are outside everything a step writes. -/
theorem parametersAreConstant : Obligations.ParametersAreConstant := by
  intro s t h
  refine step_keeps (P := fun u => u.q = s.q ∧ u.scrollStd = s.scrollStd) ?_ ?_ ?_ h ⟨rfl, rfl⟩
  · intro u v frame hu
    rw [frame]
    exact hu
  · exact fun _ _ hu => hu
  · intro i u v hv ⟨hq, hsc⟩
    obtain ⟨eq, esc, -, -⟩ := exec_keeps_parameters_and_inputs hv
    exact ⟨eq.trans hq, esc.trans hsc⟩

/-! ## The places and their writers -/

/-- Settles O51: `written` names the depth for CALL and RET alone, and the stack for CALL alone. -/
theorem callStackHasItsWriters : Obligations.CallStackHasItsWriters := by
  intro i s t h hs
  have frame := exec_frame h hs
  cases i with
  | call nnn => exact ⟨fun hne => absurd rfl (hne nnn), fun hne => absurd rfl (hne nnn)⟩
  | ret => exact ⟨fun _ => by rw [frame]; rfl, fun _ hne => absurd rfl hne⟩
  | _ => rw [frame]; exact ⟨fun _ => rfl, fun _ _ => rfl⟩

/-- Settles O52: `written` names each timer for its own load alone. -/
theorem timersHaveTheirWriters : Obligations.TimersHaveTheirWriters := by
  intro i s t h hs
  have frame := exec_frame h hs
  cases i with
  | ldDtVx x => exact ⟨fun hne => absurd rfl (hne x), fun _ => by rw [frame]; rfl⟩
  | ldStVx x => exact ⟨fun _ => by rw [frame]; rfl, fun hne => absurd rfl (hne x)⟩
  | _ => rw [frame]; exact ⟨fun _ => rfl, fun _ => rfl⟩

/-- A logical operation that neither clears `VF` nor names it leaves it alone (R103). -/
theorem setLogic_keeps_flag {s : State} {x : Reg} {b : Byte} (h : ¬ (s.q.vfReset = true ∨ x = vF)) :
    (s.setLogic x b).reg vF = s.reg vF := by
  obtain ⟨hq, hx⟩ := not_or.1 h
  rw [reg_setLogic, if_neg fun hf => hq hf.1, if_neg (Ne.symm hx)]

/-- A range write of at most 15 bytes does not reach `VF` (R166, R168). -/
theorem setRegs_keeps_flag (s : State) {bytes : List Byte} (h : bytes.length ≤ 15) :
    (s.setRegs bytes).reg vF = s.reg vF := by
  rw [reg_setRegs, List.getElem?_eq_none (i := vF.val) h, Option.getD_none]

/-- Settles O50: an instruction that writes registers names another destination than `VF`, the rest write no register. -/
theorem othersLeaveFlagAlone : Obligations.OthersLeaveFlagAlone := by
  intro i s t h hs hw
  cases i with
  | addReg _ _ | subReg _ _ | subn _ _ | shr _ _ | shl _ _ | drw _ _ _ => exact absurd trivial hw
  | orReg _ _ | andReg _ _ | xorReg _ _ => cases h; exact setLogic_keeps_flag hw
  | ldImm _ _ | addImm _ _ | ldReg _ _ | rnd _ _ | ldVxDt _ => cases h; exact reg_setReg_ne s _ (Ne.symm hw)
  | ldVxK x =>
    rcases exec_ldVxK_cases x s with ⟨k, e⟩ | e <;> cases h.symm.trans e
    · exact reg_setReg_ne s _ (Ne.symm hw)
    · rfl
  | ldVxMem x =>
    obtain ⟨-, -, e⟩ := (exec_ldVxMem_cases s x).resolve_right (not_stops hs)
    cases h.symm.trans e
    have hx : x.val ≠ 15 := fun hx => hw (Fin.ext hx)
    exact setRegs_keeps_flag s (by rw [memory_readBytes_length]; omega)
  | ldVxR x =>
    cases h
    exact setRegs_keeps_flag s (by simp [rplCount])
  | _ => rw [exec_frame h hs]; rfl

/-! ## The inputs of a Cycle -/

/-- `s` with another keypad sample and another drawn byte (R24, R30). -/
def withInputs (k : Keys) (b : Byte) (s : State) : State := { s with key := k, rnd := b }

section
variable (k : Keys) (b : Byte) (s : State)

theorem skipIf_withInputs (c : Bool) : (withInputs k b s).skipIf c = withInputs k b (s.skipIf c) := by cases c <;> rfl

theorem setLogic_withInputs (x : Reg) (v : Byte) :
    (withInputs k b s).setLogic x v = withInputs k b (s.setLogic x v) := by
  unfold State.setLogic
  change (if s.q.vfReset then _ else _) = _
  split <;> rfl

end

/-- Whether an instruction stops does not depend on the inputs (R181, R184). -/
theorem stopOf_withInputs (i : Instr) (k : Keys) (b : Byte) (s : State) : stopOf i (withInputs k b s) = stopOf i s := by
  cases i <;> rfl

/-- It is enough that the state an instruction completes in carries the inputs through. -/
theorem exec_withInputs_of {i : Instr} {s t : State} {k : Keys} {b : Byte} {f : State → State}
    (completes : ∀ u, stopOf i u = none → exec i u = .next (f u)) (h : exec i s = .next t) (hs : stopOf i s = none)
    (carries : f (withInputs k b s) = withInputs k b (f s)) : exec i (withInputs k b s) = .next (withInputs k b t) := by
  cases h.symm.trans (completes s hs)
  rw [completes _ ((stopOf_withInputs i k b s).trans hs), carries]

/-- A completed instruction that does not read the inputs answers the same whatever they are (R24, R30). -/
theorem exec_withInputs {i : Instr} {s t : State} {k : Keys} {b : Byte} (h : exec i s = .next t)
    (hs : stopOf i s = none) (hk : readsKeypad i → k = s.key) (hb : ∀ x kk, i = .rnd x kk → b = s.rnd) :
    exec i (withInputs k b s) = .next (withInputs k b t) := by
  cases i with
  | ret =>
    obtain ⟨_, _, -, e⟩ := (exec_ret_cases s).resolve_right (not_stops hs)
    obtain ⟨_, _, -, e'⟩ := (exec_ret_cases (withInputs k b s)).resolve_right (not_stops hs)
    cases h.symm.trans e
    exact e'
  | call nnn =>
    obtain ⟨_, -, e⟩ := (exec_call_cases s nnn).resolve_right (not_stops hs)
    obtain ⟨_, -, e'⟩ := (exec_call_cases (withInputs k b s) nnn).resolve_right (not_stops hs)
    cases h.symm.trans e
    exact e'
  | drw x y n =>
    exact exec_withInputs_of (fun u hu => ((exec_drw_cases u x y n).resolve_right (not_stops hu)).2) h hs rfl
  | ldBVx x => exact exec_withInputs_of (fun u hu => ((exec_ldBVx_cases u x).resolve_right (not_stops hu)).2.2) h hs rfl
  | ldMemVx x =>
    exact exec_withInputs_of (fun u hu => ((exec_ldMemVx_cases u x).resolve_right (not_stops hu)).2.2) h hs rfl
  | ldVxMem x =>
    exact exec_withInputs_of (fun u hu => ((exec_ldVxMem_cases u x).resolve_right (not_stops hu)).2.2) h hs rfl
  | skp x =>
    cases hk trivial
    exact exec_withInputs_of (fun u hu => ((exec_skp_cases u x).resolve_right (not_stops hu)).2.2) h hs
      (skipIf_withInputs ..)
  | sknp x =>
    cases hk trivial
    exact exec_withInputs_of (fun u hu => ((exec_sknp_cases u x).resolve_right (not_stops hu)).2.2) h hs
      (skipIf_withInputs ..)
  | ldVxK x =>
    cases hk trivial
    have same_edge : (withInputs s.key b s).firstEdge = s.firstEdge := rfl
    refine exec_withInputs_of (fun _ _ => rfl) h hs ?_
    rw [same_edge]
    cases s.firstEdge <;> rfl
  | rnd x kk =>
    cases hb x kk rfl
    exact exec_withInputs_of (fun _ _ => rfl) h hs rfl
  | seImm _ _ | sneImm _ _ | seReg _ _ | sneReg _ _ =>
    exact exec_withInputs_of (fun _ _ => rfl) h hs (skipIf_withInputs ..)
  | orReg _ _ | andReg _ _ | xorReg _ _ => exact exec_withInputs_of (fun _ _ => rfl) h hs (setLogic_withInputs ..)
  | _ => exact exec_withInputs_of (fun _ _ => rfl) h hs rfl

/-- Settles O54: each half changes one input and keeps the other as the instruction found it and leaves it. -/
theorem inputsReachOnlyTheirReaders : Obligations.InputsReachOnlyTheirReaders := by
  intro i s t h hs
  obtain ⟨-, -, key_kept, rnd_kept⟩ := exec_keeps_parameters_and_inputs h
  constructor
  · intro b hne
    have answer : ({ t with rnd := b } : State) = withInputs s.key b t := by rw [← key_kept]; rfl
    rw [answer]
    exact exec_withInputs h hs (fun _ => rfl) fun x kk e => absurd e (hne x kk)
  · intro k hne
    have answer : ({ t with key := k } : State) = withInputs k s.rnd t := by rw [← rnd_kept]; rfl
    rw [answer]
    exact exec_withInputs h hs (fun hr => absurd hr hne) fun _ _ _ => rfl

/-- Settles O57: a completed Cycle ends in the snapshot of the sample it was given, which its instruction keeps; Tick and
ClearDirty leave `prev`. -/
theorem snapshotIsTheCyclesSample : Obligations.SnapshotIsTheCyclesSample := by
  intro s t h ht
  obtain ⟨-, ⟨key, rnd, u, hr, hc⟩ | ⟨u, hu, rfl⟩ | ⟨u, hu, rfl⟩⟩ := step_next_cases h
  · obtain ⟨-, s', hop, rfl⟩ := hr
    have sampled : t.prev = key := cycle_prev hc ht
    refine ⟨fun key' _ _ e => ?_, fun hne => absurd hop (hne _ _ _)⟩
    cases hop.symm.trans e
    exact sampled
  · refine ⟨fun _ _ _ e => ?_, fun _ => ?_⟩
    · cases hu.symm.trans e
    · rw [takeOp_frame hu]; rfl
  · refine ⟨fun _ _ _ e => ?_, fun _ => ?_⟩
    · cases hu.symm.trans e
    · rw [takeOp_frame hu]; rfl

/-! ## The halt and the host's operations -/

/-- Settles O55: a halted machine runs no Cycle, and Tick and ClearDirty write the timers and `dirty` alone. -/
theorem haltIsPermanent : Obligations.HaltIsPermanent := by
  intro s t halted h
  obtain ⟨hs, ⟨key, rnd, u, ⟨⟨-, running⟩, -⟩, -⟩ | ⟨u, hu, rfl⟩ | ⟨u, hu, rfl⟩⟩ := step_next_cases h
  · cases halted.symm.trans running
  · rw [takeOp_frame hu]
    exact ⟨halted, hs, rfl⟩
  · rw [takeOp_frame hu]
    exact ⟨halted, hs, rfl⟩

/-- Settles O13: the two arms of taking an operation are the two cases of the script. -/
theorem scriptIsTakenInOrder : Obligations.ScriptIsTakenInOrder := by
  intro s
  constructor
  · intro op rest h
    simp only [step, operate, State.takeOp, h]
  · intro h
    simp only [step, operate, State.takeOp, h]

/-- Settles O11: the operation taken off the script is performed on the rest (O13). -/
theorem clearDirtyClearsOnlyDirty : Obligations.ClearDirtyClearsOnlyDirty := by
  intro s rest hs h
  refine ⟨clearDirty { s with script := rest }, ?_, rfl, rfl⟩
  rw [(scriptIsTakenInOrder s).1 _ _ h]
  simp [perform, hs]

/-! ## Reset and the queries -/

/-- Settles O15: every array is filled with 0, and the grid is blank. -/
theorem resetState : Obligations.ResetState := by
  refine ⟨rfl, rfl, ?_, rfl, ?_, ?_, cell_blank, rfl, rfl, rfl, rfl, ?_, rfl, rfl⟩
  · simp [State.reg, State.reset]
  · simp [State.reset]
  · simp [State.reset]
  · intro k
    by_cases hk : k < 16 <;> simp [keyAt, State.reset, hk]

/-- Settles O58: the tone is on when `ST` differs from 0 as a byte, hence as a number. -/
theorem queriesReadTheState : Obligations.QueriesReadTheState := by
  intro s
  refine ⟨rfl, ?_, Iff.rfl⟩
  rw [tone, bne_iff_ne, ne_eq, ne_eq, ← BitVec.toNat_inj]
  rfl

end Sys2Proof.Proofs
end

section
/-!
PROOFS. The memory family (spec/20_memory.md): one-byte accesses, the fetch and the word it reads back after a store, and the
instructions that write memory and the other places.
-/

namespace Sys2Proof.Proofs

open Sys2Proof.Machine Sys2Proof.Laws

/-! ## One byte and the fetch -/

/-- Settles O19: an access of one byte stays inside memory exactly below 4096, and the store is one write. -/
theorem oneByteAccesses : Obligations.OneByteAccesses := by
  intro m a v hm
  constructor
  · intro ha
    have outside : ¬ a + 1 ≤ Config.memSize := by simp only [Config.memSize]; omega
    exact ⟨by simp [memRead, outside], by simp [memWrite, outside]⟩
  · intro ha
    have inside : a + 1 ≤ Config.memSize := ha
    refine ⟨if_pos (.inr inside), m.write a v, if_pos (.inr inside), memory_write_wf hm ha, ?_, fun b hb => ?_⟩
    · rw [memory_read_write hm, if_pos rfl]
    · rw [memory_read_write hm, if_neg hb]

/-- Settles O9: below 4095 the fetch is the word of the two bytes at `pc`; from 4095 on it stops the Cycle, whose `pc` is the
one before the operation was taken. -/
theorem fetchBigEndianOrAddressRange : Obligations.FetchBigEndianOrAddressRange := by
  intro s
  constructor
  · intro hpc
    rcases fetch_cases s with ⟨-, e⟩ | ⟨beyond, -⟩
    · exact ⟨_, e, wordOf_toNat _ _⟩
    · omega
  · intro key rnd u ready hpc
    obtain ⟨-, -, -, frame⟩ := cycleReady_running ready
    have pc_eq : u.pc = s.pc := by rw [frame]
    rcases cycle_cases u with ⟨-, e⟩ | ⟨below, -⟩ | ⟨below, -⟩
    · exact ⟨_, (step_of_cycleReady ready).trans e, rfl, rfl⟩
    all_goals rw [pc_eq] at below; omega

/-! ## A stored word is fetched -/

/-- The fetch at the address of a store of two or more bytes gives the first two of them, big-endian (R42, R50). -/
theorem fetch_of_stored {u : State} {m : Memory} {bytes : List Byte} (hm : m.wf) (two : 2 ≤ bytes.length)
    (fits : u.pc.toNat + bytes.length ≤ Config.memSize) (stored : u.mem = m.writeBytes u.pc.toNat bytes) :
    u.fetch = .ok (wordOf (bytes.getD 0 0) (bytes.getD 1 0)) := by
  have read_back : ∀ k < 2, u.mem.read (u.pc.toNat + k) = bytes.getD k 0 := by
    intro k hk
    rw [stored, memory_read_writeBytes hm fits, if_pos (by omega), Nat.add_sub_cancel_left]
  rcases fetch_cases u with ⟨-, e⟩ | ⟨beyond, -⟩
  · rw [e, ← read_back 0 (by omega), ← read_back 1 (by omega)]
    rfl
  · simp only [Config.memSize] at fits
    omega

/-- Settles O20: the block store writes `V0` and `V1` first, at `I`. -/
theorem storedWordIsFetched : Obligations.StoredWordIsFetched := by
  intro s t u x hm hx fits h hmem hpc
  rcases exec_ldMemVx_cases s x with ⟨hr, -, e⟩ | ⟨stops, -⟩
  · cases h.symm.trans e
    have first : ∀ (i : Nat) (hi : i < 16), i ≤ x.val → (s.firstRegs (x.val + 1)).getD i 0 = s.reg ⟨i, hi⟩ := by
      intro i hi hix
      rw [List.getD_eq_getElem?_getD, firstRegs_getElem? s _ i hi, if_pos (by omega), Option.getD_some]
    have word := fetch_of_stored (u := u) (bytes := s.firstRegs (x.val + 1)) hm (by rw [firstRegs_block_length]; omega)
      (by rw [hpc, firstRegs_block_length]; exact hr) (by rw [hpc]; exact hmem)
    rwa [first 0 (by omega) (by omega), first 1 (by omega) hx] at word
  · cases stops.symm.trans (if_neg (by omega))

/-- All 16 bits of a word, numbered as the opcode table numbers them, are the word. -/
theorem tableWord_toNat (w : Word) : tableWord 16 w.toNat = w := by
  rw [tableWord, Nat.mod_eq_of_lt w.isLt, BitVec.ofNat_toNat, BitVec.setWidth_eq]

/-- The word is placed where two bytes fit (log 9). -/
theorem placeWord_pc_fits (s : State) (w : Word) : (s.placeWord w).pc.toNat + 2 ≤ Config.memSize := by
  change (if s.pc.toNat + 2 ≤ Config.memSize then s.pc else BitVec.ofNat 16 Config.programBase).toNat + 2 ≤ _
  split
  · assumption
  · decide

/-- After a word is placed a Cycle comes first in the script (log 9). -/
theorem placeWord_script (s : State) (w : Word) : ∃ key rnd rest, (s.placeWord w).script = .cycle key rnd :: rest := by
  unfold State.placeWord
  rcases s.script with _ | ⟨_ | _ | _, rest⟩ <;> exact ⟨_, _, _, rfl⟩

/-- After a word is placed the next operation is a defined Cycle (log 9). -/
theorem placeWord_cycleReady (s : State) (w : Word) : ∃ key rnd u, (s.placeWord w).cycleReady key rnd u := by
  obtain ⟨key, rnd, rest, hs⟩ := placeWord_script s w
  exact ⟨key, rnd, _, ⟨rfl, rfl⟩, _, by rw [State.takeOp, hs], rfl⟩

/-- Settles O14: the Cycle that comes next runs on the memory and the `pc` of the placed word. -/
theorem placedWordIsFetchedNext : Obligations.PlacedWordIsFetchedNext := by
  intro s w hm
  rw [State.withFetchWord, tableWord_toNat]
  obtain ⟨key, rnd, u, ready⟩ := placeWord_cycleReady s w
  obtain ⟨-, -, -, frame⟩ := cycleReady_running ready
  have pc_eq : u.pc = (s.placeWord w).pc := by rw [frame]
  have mem_eq : u.mem = s.mem.writeBytes u.pc.toNat (wordBytes w) := by rw [frame]; rfl
  refine ⟨key, rnd, u, ready, ?_⟩
  rw [fetch_of_stored hm le_rfl (pc_eq ▸ placeWord_pc_fits s w) mem_eq]
  exact congrArg Except.ok (wordOf_bytes w)

/-! ## The places and their writers -/

section
variable {i : Instr} {s t : State} (h : exec i s = .next t) (hs : stopOf i s = none)
include h hs

/-- Only the two stores write memory (R40, R164, R165). -/
theorem exec_keeps_mem (bcd : ∀ x, i ≠ .ldBVx x) (block : ∀ x, i ≠ .ldMemVx x) : t.mem = s.mem := by
  rw [exec_frame h hs]
  cases i with
  | ldBVx x => exact absurd rfl (bcd x)
  | ldMemVx x => exact absurd rfl (block x)
  | _ => rfl

/-- Only the RPL save writes the RPL file (R16). -/
theorem exec_keeps_rpl (save : ∀ x, i ≠ .ldRVx x) : t.rpl = s.rpl := by
  rw [exec_frame h hs]
  cases i with
  | ldRVx x => exact absurd rfl (save x)
  | _ => rfl

/-- Only the display instructions write the framebuffer and `dirty` (R17, R19). -/
theorem exec_keeps_display (hd : ¬ isDisplay i) : t.fb = s.fb ∧ t.dirty = s.dirty := by
  rw [exec_frame h hs]
  cases i with
  | cls | drw _ _ _ | scd _ | scr | scl | low | high => exact absurd trivial hd
  | _ => exact ⟨rfl, rfl⟩

/-- Only LOW and HIGH write the mode (R18). -/
theorem exec_keeps_ext (low : i ≠ .low) (high : i ≠ .high) : t.ext = s.ext := by
  rw [exec_frame h hs]
  cases i with
  | low => exact absurd rfl low
  | high => exact absurd rfl high
  | _ => rfl

/-- Only EXIT writes the halted flag (R26). -/
theorem exec_keeps_halted (exit : i ≠ .exit) : t.halted = s.halted := by
  rw [exec_frame h hs]
  cases i with
  | exit => exact absurd rfl exit
  | _ => rfl

/-- No instruction clears `dirty`: a display instruction sets it, a disabled scroll leaves it (R19, R127). -/
theorem exec_dirty_stays (hd : s.dirty = true) : t.dirty = true := by
  cases i with
  | cls | low | high => cases h; rfl
  | scr | scl | scd _ => cases h; rw [scroll_dirty, hd, Bool.true_or]
  | drw x y n =>
    obtain ⟨-, e⟩ := (exec_drw_cases s x y n).resolve_right (not_stops hs)
    cases h.symm.trans e
    rfl
  | _ => rw [exec_frame h hs]; exact hd

/-- No instruction clears the halted flag: EXIT sets it (R26, R140). -/
theorem exec_halted_stays (hh : s.halted = true) : t.halted = true := by
  by_cases exit : i = .exit
  · subst exit
    cases h
    rfl
  · exact (exec_keeps_halted h hs exit).trans hh

end

/-- Settles O53: one lemma per place, each read off `written`. -/
theorem placesHaveTheirWriters : Obligations.PlacesHaveTheirWriters := by
  intro i s t h hs
  refine ⟨fun bcd block => ?_, exec_keeps_rpl h hs, exec_keeps_display h hs, exec_keeps_ext h hs, exec_keeps_halted h hs,
    exec_dirty_stays h hs, exec_halted_stays h hs⟩
  have mem_kept : t.mem = s.mem := exec_keeps_mem h hs bcd block
  exact ⟨fun a => by rw [mem_kept], mem_kept⟩

end Sys2Proof.Proofs
end

section
/-!
PROOFS. The encoding family (spec/30_encoding.md): decoder and encoder are inverse, the words that match nothing, first match
in the nested tables and in the flat one, and what a step does with the word it fetched.
-/

namespace Sys2Proof.Proofs

open Sys2Proof.Machine Sys2Proof.Laws

/-! ## From the instruction to the word and back -/

theorem decode_eq_ok_iff {w : Word} {i : Instr} : decode w = .ok i ↔ dispatch w = some i := by
  unfold decode
  cases dispatch w <;> simp

theorem dispatch_encXYN (cls : BitVec 4) (x y : Reg) (n : BitVec 4) :
    dispatch (encXYN cls x y n) = byClass cls (BitVec.ofFin x) (BitVec.ofFin y) n := by
  rw [encXYN_nibbles, dispatch_nibbles]

theorem dispatch_encXKK (cls : BitVec 4) (x : Reg) (kk : Byte) :
    dispatch (encXKK cls x kk) = byClass cls (BitVec.ofFin x) (kk.extractLsb' 4 4) (kk.extractLsb' 0 4) := by
  rw [encXKK_nibbles, dispatch_nibbles]

theorem dispatch_encNNN (cls : BitVec 4) (nnn : Addr) :
    dispatch (encNNN cls nnn) = byClass cls (nnn.extractLsb' 8 4) (nnn.extractLsb' 4 4) (nnn.extractLsb' 0 4) := by
  rw [encNNN_nibbles, dispatch_nibbles]

theorem encode_scd (n : Nat) : encode (.scd n) = nibbles 0 0 0xC (BitVec.ofNat 4 n) := rfl

theorem encode_drw (x y : Reg) (n : Nat) :
    encode (.drw x y n) = nibbles 0xD (BitVec.ofFin x) (BitVec.ofFin y) (BitVec.ofNat 4 n) := rfl

/-- A count of at most 15 is kept by the four bits that encode it (R62, R69). -/
theorem toNat_ofNat_of_count {n : Nat} (h : n ≤ nibbleMax) : (BitVec.ofNat 4 n).toNat = n :=
  BitVec.toNat_ofNat .. ▸ Nat.mod_eq_of_lt (Nat.lt_succ_of_le h)

/-- The word of an instruction, format by format, selects it: only the counts of SCD and DRW need well-formedness. -/
theorem dispatch_encode {i : Instr} (h : i.wf = true) : dispatch (encode i) = some i := by
  cases i with
  | cls | ret | scr | scl | exit | low | high => rfl
  | scd n =>
    rw [encode_scd, dispatch_nibbles]
    simp [byClass, zeroClass, toNat_ofNat_of_count (of_decide_eq_true h)]
  | drw x y n =>
    rw [encode_drw, dispatch_nibbles]
    simp [byClass, toNat_ofNat_of_count (of_decide_eq_true h)]
  | jp nnn | call nnn | ldI nnn | jpOff nnn => simp [encode, dispatch_encNNN, byClass, addr_of_nibbles]
  | seImm x kk | sneImm x kk | ldImm x kk | addImm x kk | rnd x kk =>
    simp [encode, dispatch_encXKK, byClass, byte_of_nibbles]
  | seReg x y | sneReg x y => simp [encode, dispatch_encXYN, byClass]
  | ldReg x y | orReg x y | andReg x y | xorReg x y | addReg x y | subReg x y | shr x y | subn x y | shl x y =>
    simp [encode, dispatch_encXYN, byClass, eightClass]
  | skp x | sknp x => simp [encode, dispatch_encXKK, byClass]
  | _ => simp [encode, dispatch_encXKK, byClass, fifteenClass]

/-- Settles O1: the dispatch on the word of each format. -/
theorem decodeOfEncode : Obligations.DecodeOfEncode := fun _ h => decode_eq_ok_iff.mpr (dispatch_encode h)

/-- Settles O4: each word but the last is the encoding of its instruction (O1). -/
theorem specWordsDecode : Obligations.SpecWordsDecode :=
  ⟨decodeOfEncode .cls rfl, decodeOfEncode (.scd 15) rfl, decodeOfEncode (.seReg 1 2) rfl, decodeOfEncode (.shl 1 2) rfl,
    decodeOfEncode (.drw 1 2 10) rfl, decodeOfEncode (.sknp 15) rfl, decodeOfEncode (.ldVxMem 1) rfl, rfl⟩

/-! ## From the word to the instruction and back -/

/-- What `o` holds, if anything, is a well-formed instruction that encodes to `w`. -/
def encodesTo (w : Word) (o : Option Instr) : Prop := ∀ i, o = some i → i.wf = true ∧ encode i = w

theorem encodesTo_none (w : Word) : encodesTo w none := nofun

theorem encodesTo_some {w : Word} {i : Instr} (hi : i.wf = true) (he : encode i = w) : encodesTo w (some i) := by
  rintro _ ⟨⟩
  exact ⟨hi, he⟩

theorem encodesTo_ite {w : Word} {p : Prop} [Decidable p] {o₁ o₂ : Option Instr} (h₁ : p → encodesTo w o₁)
    (h₂ : encodesTo w o₂) : encodesTo w (if p then o₁ else o₂) := by
  split
  · next hp => exact h₁ hp
  · exact h₂

/-- A register and a byte taken from a word make that word again (R62, R63). -/
theorem encodesTo_xkk {a b c d : BitVec 4} {i : Instr} (hi : i.wf = true) (he : encode i = encXKK a b.toFin (c ++ d)) :
    encodesTo (nibbles a b c d) (some i) :=
  encodesTo_some hi (he.trans (BitVec.append_assoc (x₁ := a ++ b) (x₂ := c) (x₃ := d)).symm)

/-- An address taken from a word makes that word again (R62, R63). -/
theorem encodesTo_nnn {a b c d : BitVec 4} {i : Instr} (hi : i.wf = true) (he : encode i = encNNN a (b ++ c ++ d)) :
    encodesTo (nibbles a b c d) (some i) := by
  refine encodesTo_some hi (he.trans ?_)
  rw [encNNN, BitVec.append_assoc', BitVec.append_assoc']
  rfl

theorem nibble_le_nibbleMax (d : BitVec 4) : d.toNat ≤ nibbleMax := Nat.le_of_lt_succ d.isLt

theorem ofNat_nibble (d : BitVec 4) : BitVec.ofNat 4 d.toNat = d := by rw [BitVec.ofNat_toNat, BitVec.setWidth_eq]

theorem encodesTo_zeroClass (b c d : BitVec 4) : encodesTo (nibbles 0 b c d) (zeroClass b c d) := by
  unfold zeroClass
  iterate 7 refine encodesTo_ite (by rintro ⟨rfl, rfl, rfl⟩; exact encodesTo_some rfl rfl) ?_
  refine encodesTo_ite ?_ (encodesTo_none _)
  rintro ⟨rfl, rfl⟩
  exact encodesTo_some (decide_eq_true (nibble_le_nibbleMax d)) (by rw [encode_scd, ofNat_nibble])

theorem encodesTo_eightClass (b c d : BitVec 4) : encodesTo (nibbles 8 b c d) (eightClass b c d) := by
  unfold eightClass
  iterate 9 refine encodesTo_ite (by rintro rfl; exact encodesTo_some rfl rfl) ?_
  exact encodesTo_none _

theorem encodesTo_fifteenClass (b c d : BitVec 4) : encodesTo (nibbles 15 b c d) (fifteenClass b c d) := by
  unfold fifteenClass
  iterate 12 refine encodesTo_ite (by rintro ⟨rfl, rfl⟩; exact encodesTo_xkk rfl rfl) ?_
  exact encodesTo_none _

/-- To prove a property of every class nibble, prove it of the sixteen classes. -/
theorem class_cases {motive : BitVec 4 → Prop} (class0 : motive 0) (class1 : motive 1) (class2 : motive 2)
    (class3 : motive 3) (class4 : motive 4) (class5 : motive 5) (class6 : motive 6) (class7 : motive 7)
    (class8 : motive 8) (class9 : motive 9) (classA : motive 0xA) (classB : motive 0xB) (classC : motive 0xC)
    (classD : motive 0xD) (classE : motive 0xE) (classF : motive 0xF) (a : BitVec 4) : motive a := by
  refine forall_nibble (fun k => ?_) a
  fin_cases k <;> assumption

/-- Class by class, what the dispatch selects encodes to the word it was selected for. -/
theorem encodesTo_byClass (a b c d : BitVec 4) : encodesTo (nibbles a b c d) (byClass a b c d) := by
  cases a using class_cases with
  | class0 => exact encodesTo_zeroClass b c d
  | class8 => exact encodesTo_eightClass b c d
  | classF => exact encodesTo_fifteenClass b c d
  | class1 | class2 | classA | classB => exact encodesTo_nnn rfl rfl
  | class3 | class4 | class6 | class7 | classC => exact encodesTo_xkk rfl rfl
  | class5 | class9 =>
    change encodesTo _ (if d = 0 then _ else none)
    exact encodesTo_ite (by rintro rfl; exact encodesTo_some rfl rfl) (encodesTo_none _)
  | classD =>
    exact encodesTo_some (decide_eq_true (nibble_le_nibbleMax d)) (by rw [encode_drw, ofNat_nibble])
  | classE =>
    change encodesTo _ (if c = 9 ∧ d = 0xE then _ else if c = 0xA ∧ d = 1 then _ else none)
    refine encodesTo_ite ?_ (encodesTo_ite ?_ (encodesTo_none _)) <;> rintro ⟨rfl, rfl⟩ <;> exact encodesTo_xkk rfl rfl

/-- Settles O2: every word is its four nibbles, and the dispatch is the choice on them. -/
theorem encodeOfDecode : Obligations.EncodeOfDecode := by
  intro w i h
  have selected := encodesTo_byClass (w.extractLsb' 12 4) (w.extractLsb' 8 4) (w.extractLsb' 4 4) (w.extractLsb' 0 4)
  rw [← dispatch_nibbles, nibbles_of_word] at selected
  exact selected i (decode_eq_ok_iff.mp h)

/-! ## The words that match nothing -/

theorem decode_ne_ok_iff {w : Word} : (∀ i, decode w ≠ .ok i) ↔ dispatch w = none := by
  simp only [ne_eq, decode_eq_ok_iff, Option.eq_none_iff_forall_ne_some]

theorem nibbles_toNat (a b c d : BitVec 4) :
    (nibbles a b c d).toNat = 4096 * a.toNat + 256 * b.toNat + 16 * c.toNat + d.toNat := by
  simp only [nibbles, BitVec.toNat_append]
  rw [← Nat.shiftLeft_add_eq_or_of_lt d.isLt, ← Nat.shiftLeft_add_eq_or_of_lt c.isLt,
    ← Nat.shiftLeft_add_eq_or_of_lt b.isLt]
  omega

/-- The class, the low nibble and the low byte of a word as numbers, as R71's table speaks of them. -/
theorem nibbles_toNat_parts (a b c d : BitVec 4) :
    ((nibbles a b c d).toNat < 0x1000 ↔ a.toNat = 0) ∧ (nibbles a b c d).toNat / 0x1000 = a.toNat ∧
      (nibbles a b c d).toNat % 16 = d.toNat ∧ (nibbles a b c d).toNat % 256 = 16 * c.toNat + d.toNat := by
  rw [nibbles_toNat]
  omega

theorem low_byte_eq_iff (c d p q : BitVec 4) :
    c = p ∧ d = q ↔ 16 * c.toNat + d.toNat = 16 * p.toNat + q.toNat := by
  rw [← BitVec.toNat_inj, ← BitVec.toNat_inj]
  omega

theorem ite_some_eq_none_iff {p : Prop} [Decidable p] {i : Instr} {o : Option Instr} :
    (if p then some i else o) = none ↔ ¬ p ∧ o = none := by
  by_cases hp : p <;> simp [hp]

theorem zeroClass_eq_none_iff (b c d : BitVec 4) :
    zeroClass b c d = none ↔
      ¬ (0x00C0 ≤ (nibbles 0 b c d).toNat ∧ (nibbles 0 b c d).toNat ≤ 0x00CF) ∧ (nibbles 0 b c d).toNat ≠ 0x00E0 ∧
        (nibbles 0 b c d).toNat ≠ 0x00EE ∧ ¬ (0x00FB ≤ (nibbles 0 b c d).toNat ∧ (nibbles 0 b c d).toNat ≤ 0x00FF) := by
  simp only [zeroClass, ite_some_eq_none_iff, nibbles_toNat, BitVec.ofNat_eq_ofNat, ← BitVec.toNat_inj,
    BitVec.toNat_ofNat, and_true]
  omega

theorem eightClass_eq_none_iff (b c d : BitVec 4) :
    eightClass b c d = none ↔ d.toNat ∈ [0x8, 0x9, 0xA, 0xB, 0xC, 0xD, 0xF] := by
  simp only [eightClass, ite_some_eq_none_iff, BitVec.ofNat_eq_ofNat, ← BitVec.toNat_inj, BitVec.toNat_ofNat,
    List.mem_cons, List.not_mem_nil, and_true, or_false]
  omega

theorem fifteenClass_eq_none_iff (b c d : BitVec 4) :
    fifteenClass b c d = none ↔
      16 * c.toNat + d.toNat ∉ [0x07, 0x0A, 0x15, 0x18, 0x1E, 0x29, 0x30, 0x33, 0x55, 0x65, 0x75, 0x85] := by
  simp [fifteenClass, ite_some_eq_none_iff, low_byte_eq_iff]

/-- Settles O3: of the sixteen classes, ten match every word, and each of the others is a row of the table. -/
theorem unmatchedWordsAreTheTable : Obligations.UnmatchedWordsAreTheTable := by
  intro w
  rw [decode_ne_ok_iff, ← nibbles_of_word w]
  generalize w.extractLsb' 12 4 = a, w.extractLsb' 8 4 = b, w.extractLsb' 4 4 = c, w.extractLsb' 0 4 = d
  obtain ⟨small_iff, cls, low, low_byte⟩ := nibbles_toNat_parts a b c d
  rw [dispatch_nibbles, small_iff, cls, low, low_byte]
  clear small_iff cls low low_byte
  cases a using class_cases with
  | class0 => simp [byClass, zeroClass_eq_none_iff]
  | class5 | class9 => simp [byClass, ← BitVec.toNat_inj]
  | class8 => simp [byClass, eightClass_eq_none_iff]
  | classE => simp [byClass, ite_some_eq_none_iff, low_byte_eq_iff]
  | classF => simp [byClass, fifteenClass_eq_none_iff]
  | class1 | class2 | class3 | class4 | class6 | class7 | classA | classB | classC | classD => simp [byClass]

/-! ## First match and exclusion -/

theorem topRow_hits_iff {r : TopRow} {w : Word} : r.hits w = true ↔ w &&& r.mask = r.expect := beq_iff_eq

theorem row_hits_iff {r : Row} {w : Word} : r.hits w = true ↔ w &&& r.mask = r.expect := beq_iff_eq

theorem topMatch_append_of_miss {w : Word} {pre post : List TopRow} (h : ∀ p ∈ pre, ¬ p.hits w = true) :
    topMatch (pre ++ post) w = topMatch post w := by
  rw [topMatch, topMatch, List.find?_append, List.find?_eq_none.mpr h, Option.none_or]

theorem topMatch_of_miss {w : Word} {rows : List TopRow} (h : ∀ r ∈ rows, ¬ r.hits w = true) :
    topMatch rows w = none := by
  rw [topMatch, List.find?_eq_none.mpr h]

theorem firstMatch_append (pre post : List Row) (w : Word) :
    firstMatch (pre ++ post) w = (firstMatch pre w).or (firstMatch post w) := by
  rw [firstMatch, firstMatch, firstMatch, List.find?_append, Option.map_or]

theorem firstMatch_eq_none_iff {rows : List Row} {w : Word} :
    firstMatch rows w = none ↔ ∀ r ∈ rows, ¬ r.hits w = true := by
  rw [firstMatch, Option.map_eq_none_iff, List.find?_eq_none]

/-- Where one word meets two comparisons, the expected values agree on the bits that both masks keep. -/
theorem expected_agree {w m₁ e₁ m₂ e₂ : Word} (h₁ : w &&& m₁ = e₁) (h₂ : w &&& m₂ = e₂) : e₁ &&& m₂ = e₂ &&& m₁ := by
  rw [← h₁, ← h₂, BitVec.and_assoc, BitVec.and_assoc, BitVec.and_comm m₁]

/-- Rows whose expected values disagree under each other's masks exclude one another, whatever the word: a check of the table
alone, without its 65536 words. -/
theorem pairwise_exclusive {α : Type} {mask expect : α → Word} {rows : List α}
    (h : rows.Pairwise fun p r => expect p &&& mask r ≠ expect r &&& mask p) (w : Word) :
    rows.Pairwise fun p r => ¬ (w &&& mask p = expect p ∧ w &&& mask r = expect r) :=
  h.imp fun disagree ⟨hp, hr⟩ => disagree (expected_agree hp hr)

theorem topTable_exclusive (w : Word) :
    topTable.Pairwise fun p r => ¬ (w &&& p.mask = p.expect ∧ w &&& r.mask = r.expect) :=
  pairwise_exclusive (by decide) w

theorem tableA_exclusive (w : Word) :
    tableA.Pairwise fun p r => ¬ (w &&& p.mask = p.expect ∧ w &&& r.mask = r.expect) :=
  pairwise_exclusive (by decide) w

theorem tableF_exclusive (w : Word) :
    tableF.Pairwise fun p r => ¬ (w &&& p.mask = p.expect ∧ w &&& r.mask = r.expect) :=
  pairwise_exclusive (by decide) w

/-- Settles O6: the entries in front are passed over, and the entries of a table disagree pairwise. -/
theorem firstMatchAndExclusive : Obligations.FirstMatchAndExclusive := by
  refine ⟨fun w pre r post hpre hr => ?_, fun w pre r post hpre hr => ?_,
    fun w => ⟨topTable_exclusive w, tableA_exclusive w, tableF_exclusive w⟩⟩
  · rw [topMatch_append_of_miss fun p hp => topRow_hits_iff.not.mpr (hpre p hp), topMatch_cons,
      if_pos (topRow_hits_iff.mpr hr)]
  · rw [firstMatch_append, firstMatch_eq_none_iff.mpr fun p hp => row_hits_iff.not.mpr (hpre p hp), Option.none_or,
      firstMatch_cons, if_pos (row_hits_iff.mpr hr)]

/-! ## The flat table -/

/-- Of two values kept by masks that share no bit, the first is read back through its mask. -/
theorem or_and_of_disjoint {m m' e e' : Word} (apart : m' &&& m = 0#16) (he : e &&& m = e) (he' : e' &&& m' = e') :
    (e ||| e') &&& m = e := by
  rw [BitVec.and_or_distrib_right, he, ← he', BitVec.and_assoc, apart, BitVec.and_zero, BitVec.or_zero]

/-- A comparison under two masks that share no bit is both comparisons. -/
theorem and_or_eq_or_iff {w m m' e e' : Word} (apart : m' &&& m = 0#16) (he : e &&& m = e) (he' : e' &&& m' = e') :
    w &&& (m ||| m') = e ||| e' ↔ w &&& m = e ∧ w &&& m' = e' := by
  refine ⟨fun h => ⟨?_, ?_⟩, fun ⟨h, h'⟩ => by rw [BitVec.and_or_distrib_left, h, h']⟩
  · rw [← or_and_of_disjoint apart he he', ← h, BitVec.and_assoc,
      or_and_of_disjoint apart BitVec.and_self BitVec.and_self]
  · have apart' : m &&& m' = 0#16 := BitVec.and_comm m m' ▸ apart
    rw [← or_and_of_disjoint apart' he' he, BitVec.or_comm e', ← h, BitVec.and_assoc, BitVec.or_comm m,
      or_and_of_disjoint apart' BitVec.and_self BitVec.and_self]

/-- The row compares bits below the class nibble only, and expects nothing outside its mask. -/
def keyedBelowClass (q : Row) : Bool := q.mask &&& 0xF000 == 0 && q.expect &&& q.mask == q.expect

/-- The entry, if it dispatches again, compares the class nibble, and its rows the bits below. -/
def splitsAtClass (r : TopRow) : Bool :=
  match r.target with
  | .instr _ => true
  | .secondary rows => r.mask == 0xF000 && r.expect &&& 0xF000 == r.expect && rows.all keyedBelowClass

theorem topTable_splitsAtClass : ∀ r ∈ topTable, splitsAtClass r = true := by decide

/-- The flat form of a secondary row matches when the entry of its class and the row itself do (R74). -/
theorem flat_hits {cls w : Word} {q : Row} (hc : cls &&& 0xF000 = cls) (hq : keyedBelowClass q = true) :
    (q.flat cls).hits w = (w &&& 0xF000 == cls && q.hits w) := by
  rw [keyedBelowClass, Bool.and_eq_true, beq_iff_eq, beq_iff_eq] at hq
  obtain ⟨below, within⟩ := hq
  rw [Bool.eq_iff_iff, Bool.and_eq_true, row_hits_iff, row_hits_iff, beq_iff_eq]
  exact and_or_eq_or_iff below hc within

theorem firstMatch_map_flat {cls w : Word} {rows : List Row} (hc : cls &&& 0xF000 = cls)
    (hq : ∀ q ∈ rows, keyedBelowClass q = true) :
    firstMatch (rows.map (Row.flat cls)) w = if w &&& 0xF000 == cls then firstMatch rows w else none := by
  induction rows with
  | nil => simp [firstMatch_nil]
  | cons q rows ih =>
    obtain ⟨hq, hrows⟩ := List.forall_mem_cons.mp hq
    rw [List.map_cons, firstMatch_cons, flat_hits hc hq, ih hrows, firstMatch_cons]
    cases w &&& 0xF000 == cls <;> rfl

/-- The rows an entry stands for select what the entry does, where it matches (R74). -/
theorem firstMatch_flatRows {r : TopRow} {w : Word} (hr : splitsAtClass r = true) :
    firstMatch r.flatRows w = if r.hits w then r.target.run w else none := by
  obtain ⟨mask, expect, build | rows⟩ := r
  · exact firstMatch_cons _ [] w
  · simp only [splitsAtClass, Bool.and_eq_true, beq_iff_eq, List.all_eq_true] at hr
    obtain ⟨⟨rfl, hc⟩, hq⟩ := hr
    exact firstMatch_map_flat hc hq

/-- Flattening a table whose entries exclude one another keeps what it selects: where an entry matches but its secondary table
does not, no later entry matches either. -/
theorem firstMatch_flatMap_flatRows {rows : List TopRow} {w : Word} (hr : ∀ r ∈ rows, splitsAtClass r = true)
    (hx : rows.Pairwise fun p r => ¬ (w &&& p.mask = p.expect ∧ w &&& r.mask = r.expect)) :
    firstMatch (rows.flatMap TopRow.flatRows) w = topMatch rows w := by
  induction rows with
  | nil => rfl
  | cons r rows ih =>
    obtain ⟨hr, hrows⟩ := List.forall_mem_cons.mp hr
    obtain ⟨excluded, hx⟩ := List.pairwise_cons.mp hx
    rw [List.flatMap_cons, firstMatch_append, firstMatch_flatRows hr, ih hrows hx, topMatch_cons]
    by_cases hit : r.hits w = true
    · have later : topMatch rows w = none := topMatch_of_miss fun q hq h =>
        excluded q hq ⟨topRow_hits_iff.mp hit, topRow_hits_iff.mp h⟩
      rw [if_pos hit, if_pos hit, later, Option.or_none]
    · rw [if_neg hit, if_neg hit, Option.none_or]

/-- Settles O5: the table splits at the class nibble, and its entries exclude one another. -/
theorem flatTableAgreesWithNested : Obligations.FlatTableAgreesWithNested :=
  ⟨rfl, fun w => firstMatch_flatMap_flatRows topTable_splitsAtClass (topTable_exclusive w)⟩

/-! ## What a step answers -/

/-- An instruction answers a next state, a stop included (R188). -/
theorem exec_next (i : Instr) (s : State) : ∃ t, exec i s = .next t := by
  rcases exec_cases i s with ⟨c, -, e⟩ | ⟨-, t, e, -⟩ <;> exact ⟨_, e⟩

/-- So does a Cycle (R60, R67, R188). -/
theorem cycle_next (s : State) : ∃ t, cycle s = .next t := by
  rcases cycle_cases s with ⟨-, e⟩ | ⟨-, i, -, e⟩ | ⟨-, -, e⟩
  · exact ⟨_, e⟩
  · obtain ⟨t, ht⟩ := exec_next i { s with pc := s.pc + 2, diag := none }
    exact ⟨t.finish, by rw [e, ht]⟩
  · exact ⟨_, e⟩

/-- A step is stuck after a stop, or for a Cycle on a halted machine; otherwise it answers a next state (R60, R188, R194). -/
theorem step_cases (s : State) :
    (s.stop ≠ none ∧ step s = .fault .operationAfterStop) ∨
      (s.stop = none ∧
        (((s.halted = true ∧ ∃ key rnd u, s.takeOp = (.cycle key rnd, u)) ∧ step s = .fault .cycleAfterHalt) ∨
          (¬ (s.halted = true ∧ ∃ key rnd u, s.takeOp = (.cycle key rnd, u)) ∧ ∃ t, step s = .next t))) := by
  obtain ⟨op, u, taken⟩ : ∃ op u, s.takeOp = (op, u) := ⟨_, _, rfl⟩
  have performed : step s = perform op u := by simp only [step, operate, taken]
  have stop_eq : u.stop = s.stop := by rw [takeOp_frame taken]
  have halted_eq : u.halted = s.halted := by rw [takeOp_frame taken]
  rw [performed, taken, ← stop_eq, ← halted_eq]
  rcases perform_cases u op with ⟨⟨c, hc⟩, e⟩ | ⟨hs, ⟨key, rnd, rfl, ⟨hh, e⟩ | ⟨hh, e⟩⟩ | ⟨rfl, e⟩ | ⟨rfl, e⟩⟩
  · exact .inl ⟨by simp [hc], e⟩
  · exact .inr ⟨hs, .inl ⟨⟨hh, _, _, _, rfl⟩, e⟩⟩
  · exact .inr ⟨hs, .inr ⟨by simp [hh], e ▸ cycle_next _⟩⟩
  · exact .inr ⟨hs, .inr ⟨by simp, _, e⟩⟩
  · exact .inr ⟨hs, .inr ⟨by simp, _, e⟩⟩

/-- Settles O12: the three answers of a step exclude one another. -/
theorem stepIsStuckExactly : Obligations.StepIsStuckExactly := by
  intro s
  rcases step_cases s with ⟨hs, e⟩ | ⟨hs, ⟨hc, e⟩ | ⟨hc, t, e⟩⟩ <;> rw [e]
  · simp [hs]
  · simp [hs, hc]
  · simpa [hs] using hc

/-- Settles O7: of a Cycle's three cases only the decoded one has this fetch. -/
theorem stepRunsDecodedInstruction : Obligations.StepRunsDecodedInstruction := by
  intro s u key rnd i ready hpc decoded t executed
  rw [step_of_cycleReady ready]
  rcases cycle_cases u with ⟨beyond, -⟩ | ⟨-, j, hj, e⟩ | ⟨-, ⟨r, hr⟩, -⟩
  · omega
  · cases decoded.symm.trans hj
    rw [e, executed]
    rcases finish_cases t with ⟨hs, f⟩ | ⟨⟨c, hs⟩, f⟩ <;> simp [f, hs]
  · cases decoded.symm.trans hr

/-- Settles O8: only the reporting case has this fetch, and the machine runs on, so the snapshot is taken. -/
theorem unmatchedWordIsReportedNoOp : Obligations.UnmatchedWordIsReportedNoOp := by
  intro s u key rnd ready hpc unmatched
  obtain ⟨⟨running, -⟩, sampled, -, -⟩ := cycleReady_running ready
  rw [step_of_cycleReady ready]
  rcases cycle_cases u with ⟨beyond, -⟩ | ⟨-, j, hj, -⟩ | ⟨-, -, e⟩
  · omega
  · exact absurd hj (unmatched j)
  · rcases finish_cases { u with pc := u.pc + 2, diag := some (fetchedWord u) } with ⟨-, f⟩ | ⟨⟨c, hc⟩, -⟩
    · exact ⟨_, e.trans (congrArg _ f), BitVec.toNat_add .., sampled, rfl, rfl, running⟩
    · cases running.symm.trans hc

end Sys2Proof.Proofs
end

section
/-!
PROOFS. The control flow family (spec/40_control_flow.md): the call stack, the jumps and the skips.
-/

namespace Sys2Proof.Proofs

open Sys2Proof.Machine Sys2Proof.Laws

/-! ## Stops and addresses -/

/-- Where its listed condition holds, an instruction stops with the listed cause and reports no word (R181, R184, R185). -/
theorem stopsWith_of_stopOf {i : Instr} {s : State} {c : StopCause} (h : stopOf i s = some c) :
    stopsWith c (exec i s) := by
  rcases exec_cases i s with ⟨c', hc', e⟩ | ⟨hn, -⟩
  · cases h.symm.trans hc'
    exact ⟨_, e, rfl, rfl⟩
  · cases h.symm.trans hn

@[simp] theorem addrWord_toNat (nnn : Addr) : (addrWord nnn).toNat = nnn.toNat :=
  BitVec.toNat_setWidth_of_le (by decide)

/-! ## The call stack -/

/-- With at most 15 pending calls CALL pushes and jumps (R81). -/
theorem exec_call_of_room {s : State} (nnn : Addr) (h : s.sp.val < 16) :
    exec (.call nnn) s = .next { s with
      pc := addrWord nnn, stack := s.stack.set s.sp.val s.pc h, sp := ⟨s.sp.val + 1, Nat.succ_lt_succ h⟩ } := by
  have completes : stopOf (.call nnn) s = none := if_neg (by omega)
  obtain ⟨_, -, e⟩ := (exec_call_cases s nnn).resolve_right (not_stops completes)
  exact e

/-- With `k + 1` pending calls RET pops entry `k` (R80). -/
theorem exec_ret_of_pending {s : State} {k : Nat} (hk : k < 16) (h : s.sp.val = k + 1) :
    exec .ret s = .next { s with pc := s.stack[k], sp := ⟨k, Nat.lt_succ_of_lt hk⟩ } := by
  have completes : stopOf .ret s = none := if_neg (by omega)
  obtain ⟨_, _, -, e⟩ := (exec_ret_cases s).resolve_right (not_stops completes)
  simpa only [h, Nat.add_sub_cancel] using e

/-- Settles O22: below depth 16 the push writes the one slot at `sp`, and depth 16 is the listed condition of the stop. -/
theorem callPushesAndJumps : Obligations.CallPushesAndJumps := by
  refine fun nnn s => ⟨fun room => ?_, fun full => stopsWith_of_stopOf (if_pos full)⟩
  refine ⟨_, exec_call_of_room nnn room, addrWord_toNat nnn, rfl, fun k hk => ?_, rfl⟩
  simp only [Vector.getElem_set, eq_comm (a := k)]

/-- Settles O23: RET reads the entry below `sp`, and depth 0 is the listed condition of the stop. -/
theorem returnPopsIntoPc : Obligations.ReturnPopsIntoPc :=
  fun _ => ⟨fun _ hk pending => ⟨_, exec_ret_of_pending hk pending, rfl, rfl, rfl⟩,
    fun empty => stopsWith_of_stopOf (if_pos empty)⟩

/-- Settles O24: the entry that RET pops is the one that CALL pushed. -/
theorem callThenReturnRestores : Obligations.CallThenReturnRestores := by
  intro nnn s t u room called sp_kept stack_kept
  cases called.symm.trans (exec_call_of_room nnn room)
  have pending : u.sp.val = s.sp.val + 1 := congrArg Fin.val sp_kept
  refine ⟨_, exec_ret_of_pending room pending, ?_, rfl⟩
  simp only [stack_kept, Vector.getElem_set_self]

/-! ## The jumps -/

/-- The sum of a 12-bit address and a byte does not wrap (R83). -/
theorem addrWord_add_byte_toNat (nnn : Addr) (b : Byte) :
    (addrWord nnn + b.zeroExtend 16).toNat = nnn.toNat + b.toNat := by
  have byte_toNat : (b.zeroExtend 16).toNat = b.toNat := BitVec.toNat_setWidth_of_le (by decide)
  rw [BitVec.toNat_add, addrWord_toNat, byte_toNat]
  omega

/-- With the `jump` quirk off the offset is `V0` (R83, decision D3). -/
theorem offsetTarget_toNat_of_off {s : State} (nnn : Addr) (h : s.q.jump = false) :
    (s.offsetTarget nnn).toNat = nnn.toNat + (s.reg 0).toNat := by
  simp only [State.offsetTarget, h, Bool.false_eq_true, if_false, addrWord_add_byte_toNat]

/-- With the `jump` quirk on the offset is the register of the high nibble (R83, decision D3). -/
theorem offsetTarget_toNat_of_on {s : State} {nnn : Addr} {x : Reg} (h : s.q.jump = true)
    (hx : x.val = nnn.toNat / 256) : (s.offsetTarget nnn).toNat = nnn.toNat + (s.reg x).toNat := by
  have named : (nnn.extractLsb' 8 4).toFin = x := by
    apply Fin.ext
    rw [BitVec.val_toFin, BitVec.extractLsb'_toNat, Nat.shiftRight_eq_div_pow]
    omega
  simp only [State.offsetTarget, h, if_true, named, addrWord_add_byte_toNat]

/-- Settles O21: both jumps write their target to `pc` alone. -/
theorem jumpsSetPc : Obligations.JumpsSetPc :=
  fun nnn _ => ⟨⟨_, rfl, addrWord_toNat nnn, rfl⟩,
    ⟨_, rfl, offsetTarget_toNat_of_off nnn, fun on _ hx => offsetTarget_toNat_of_on on hx, rfl⟩⟩

/-! ## The skips -/

/-- Of two instructions that skip where two bytes are equal and where they differ, exactly one skips, and both change `pc`
alone (R84 to R88). -/
theorem skips_on_equality {se sne : Instr} {s : State} {a b : Byte} (hse : exec se s = .next (s.skipIf (a == b)))
    (hsne : exec sne s = .next (s.skipIf (a != b))) :
    (∃ t, exec se s = .next t ∧ t = { s with pc := t.pc } ∧
      t.pc.toNat = if a = b then (s.pc.toNat + 2) % 65536 else s.pc.toNat) ∧
      (∃ t, exec sne s = .next t ∧ t = { s with pc := t.pc } ∧
        t.pc.toNat = if a = b then s.pc.toNat else (s.pc.toNat + 2) % 65536) := by
  refine ⟨⟨_, hse, skipIf_eq s _, ?_⟩, ⟨_, hsne, skipIf_eq s _, ?_⟩⟩
  · simp only [skipIf_pc_toNat, beq_iff_eq]
  · simp only [skipIf_pc_toNat, bne_iff_ne, ne_eq, ite_not]

/-- Settles O25: the bytes compared are `Vx` and `kk`. -/
theorem skipsOnImmediate : Obligations.SkipsOnImmediate := fun _ _ _ => skips_on_equality rfl rfl

/-- Settles O26: the bytes compared are `Vx` and `Vy`. -/
theorem skipsOnRegister : Obligations.SkipsOnRegister := fun _ _ _ => skips_on_equality rfl rfl

end Sys2Proof.Proofs
end

section
/-!
PROOFS. The 8-bit operations family (spec/41_alu.md): what a flag byte is as a number, the two shapes of a register write,
and the operations as cases of them.
-/

namespace Sys2Proof.Proofs

open Sys2Proof.Machine Sys2Proof.Laws

/-! ## The flags and the difference as numbers -/

theorem flagByte_toNat (c : Bool) : (flagByte c).toNat = if c then 1 else 0 := by cases c <;> rfl

theorem carry_toNat (a b : Byte) : (carry a b).toNat = if 255 < a.toNat + b.toNat then 1 else 0 := by
  simp only [carry, flagByte_toNat, decide_eq_true_eq]

theorem notBorrow_toNat (a b : Byte) : (notBorrow a b).toNat = if b.toNat ≤ a.toNat then 1 else 0 := by
  simp only [notBorrow, flagByte_toNat, decide_eq_true_eq]

/-- A bit as a flag is its digit in the binary expansion. -/
theorem flagByte_getLsbD_toNat (t : Byte) (k : Nat) : (flagByte (t.getLsbD k)).toNat = t.toNat / 2 ^ k % 2 := by
  rw [flagByte_toNat, ← Nat.toNat_testBit]
  exact (Bool.cond_eq_ite ..).symm

theorem shiftedOutRight_toNat (t : Byte) : (shiftedOutRight t).toNat = t.toNat % 2 :=
  (flagByte_getLsbD_toNat t 0).trans (by rw [Nat.pow_zero, Nat.div_one])

/-- Bit 7 is the leading digit of a byte, so nothing is above it. -/
theorem shiftedOutLeft_toNat (t : Byte) : (shiftedOutLeft t).toNat = t.toNat / 128 :=
  (flagByte_getLsbD_toNat t 7).trans (by omega)

/-- The difference modulo 256, by whether it borrows (R107, R109). -/
theorem byte_sub_toNat (a b : Byte) :
    (a - b).toNat = if b.toNat ≤ a.toNat then a.toNat - b.toNat else a.toNat + 256 - b.toNat := by
  rw [BitVec.toNat_sub]
  split <;> omega

theorem byte_shiftRight_one_toNat (t : Byte) : (t >>> 1).toNat = t.toNat / 2 := by
  rw [BitVec.toNat_ushiftRight, Nat.shiftRight_eq_div_pow, Nat.pow_one]

theorem byte_shiftLeft_one_toNat (t : Byte) : (t <<< 1).toNat = 2 * t.toNat % 256 := by
  rw [BitVec.toNat_shiftLeft, Nat.shiftLeft_eq, Nat.pow_one, Nat.mul_comm]

/-! ## The two shapes of a register write -/

section
variable {i : Instr} {s : State} {x : Reg} {b f : Byte}

/-- An instruction that answers one register write changes that register alone, with no flag. -/
theorem writes_register_alone (h : exec i s = .next (s.setReg x b)) :
    ∃ t, exec i s = .next t ∧ t.reg x = b ∧ (∀ r, r ≠ x → t.reg r = s.reg r) ∧ t = { s with v := t.v } :=
  ⟨_, h, reg_setReg_self s x b, fun _ => reg_setReg_ne s b, rfl⟩

/-- An instruction that answers a result and its flag changes these two registers alone, and in `VF` the flag wins
(R8, decision D2). -/
theorem writes_result_and_flag {n m : Nat} (h : exec i s = .next (s.setResult x b f)) (hb : b.toNat = n)
    (hf : f.toNat = m) :
    ∃ t, exec i s = .next t ∧ (x ≠ vF → (t.reg x).toNat = n) ∧ (t.reg vF).toNat = m ∧
      (∀ r, r ≠ x → r ≠ vF → t.reg r = s.reg r) ∧ t = { s with v := t.v } := by
  refine ⟨_, h, fun other => ?_, ?_, fun r hx hF => ?_, rfl⟩
  · rw [reg_setResult, if_neg other, if_pos rfl, hb]
  · rw [reg_setResult, if_pos rfl, hf]
  · rw [reg_setResult, if_neg hF, if_neg hx]

/-- An instruction that answers a logical result changes its register and, under `vfReset`, `VF`, which is then cleared
(R103 to R105, decision D2). -/
theorem writes_logic (h : exec i s = .next (s.setLogic x b)) :
    ∃ t, exec i s = .next t ∧ (s.q.vfReset = true → t.reg vF = 0) ∧ (s.q.vfReset = false ∨ x ≠ vF → t.reg x = b) ∧
      (∀ r, r ≠ x → (s.q.vfReset = false ∨ r ≠ vF) → t.reg r = s.reg r) ∧ t = { s with v := t.v } := by
  have not_cleared {r : Reg} (hr : s.q.vfReset = false ∨ r ≠ vF) : ¬ (s.q.vfReset = true ∧ r = vF) :=
    fun ⟨on, isF⟩ => hr.elim (fun off => Bool.false_ne_true (off.symm.trans on)) (· isF)
  refine ⟨_, h, fun on => ?_, fun hx => ?_, fun r other hr => ?_, setLogic_eq s x b⟩
  · rw [reg_setLogic, if_pos ⟨on, rfl⟩]
  · rw [reg_setLogic, if_neg (not_cleared hx), if_pos rfl]
  · rw [reg_setLogic, if_neg (not_cleared hr), if_neg other]

end

/-! ## The operations with a flag -/

/-- Settles O29: each of the three answers a logical result of the old operands. -/
theorem logicAndItsFlag : Obligations.LogicAndItsFlag := by
  rintro x y s i b (⟨rfl, rfl⟩ | ⟨rfl, rfl⟩ | ⟨rfl, rfl⟩) <;> exact writes_logic rfl

/-- Settles O30: the result is the sum of bytes, the flag its carry. -/
theorem addAndCarry : Obligations.AddAndCarry :=
  fun _ _ _ => writes_result_and_flag rfl (BitVec.toNat_add ..) (carry_toNat ..)

/-- Settles O31: SUB and SUBN differ in which operand is the minuend. -/
theorem subtractAndNotBorrow : Obligations.SubtractAndNotBorrow := by
  rintro x y s i a b (⟨rfl, rfl, rfl⟩ | ⟨rfl, rfl, rfl⟩) <;>
    exact writes_result_and_flag rfl (byte_sub_toNat ..) (notBorrow_toNat ..)

/-- Settles O32: both shifts take their input from `shiftInput`. -/
theorem shiftsAndTheBitMovedOut : Obligations.ShiftsAndTheBitMovedOut := by
  rintro x y s _ rfl
  exact ⟨writes_result_and_flag rfl (byte_shiftRight_one_toNat _) (shiftedOutRight_toNat _),
    writes_result_and_flag rfl (byte_shiftLeft_one_toNat _) (shiftedOutLeft_toNat _)⟩

/-! ## The operations without a flag -/

/-- Settles O27: both write their register alone, ADD the sum of bytes. -/
theorem immediateSetAndAdd : Obligations.ImmediateSetAndAdd := by
  refine fun x kk s => ⟨writes_register_alone rfl, ?_⟩
  obtain ⟨t, added, sum, others, frame⟩ := writes_register_alone (i := .addImm x kk) (s := s) rfl
  exact ⟨t, added, sum ▸ BitVec.toNat_add .., others, frame⟩

/-- Settles O28: the one write is of `Vy`. -/
theorem registerCopy : Obligations.RegisterCopy := fun _ _ _ => writes_register_alone rfl

/-- Settles O33: a mask never exceeds itself. -/
theorem randomByteMasked : Obligations.RandomByteMasked := by
  intro x kk s
  obtain ⟨t, drawn, masked, others, frame⟩ := writes_register_alone (i := .rnd x kk) (s := s) rfl
  have bounded : (s.rnd &&& kk).toNat ≤ kk.toNat := by
    rw [BitVec.toNat_and]
    exact Nat.and_le_right
  exact ⟨t, drawn, masked, masked ▸ bounded, others, frame⟩

end Sys2Proof.Proofs
end

section
/-!
PROOFS. The display family (spec/42_display.md): the grid cleared by CLS and the resolution switch, the state a draw leaves and
the same draw after it, and the three scrolls as one move of the region.
-/

namespace Sys2Proof.Proofs

open Sys2Proof.Machine Sys2Proof.Laws

/-! ## Clearing the grid -/

/-- Settles O34: the grid is replaced by the blank one. -/
theorem clearScreen : Obligations.ClearScreen := fun _ => ⟨_, rfl, cell_blank, rfl, rfl⟩

/-- Settles O35: both switches put the blank grid in place and differ in the mode alone. -/
theorem resolutionSwitch : Obligations.ResolutionSwitch := by
  rintro s i b (⟨rfl, rfl⟩ | ⟨rfl, rfl⟩) <;> exact ⟨_, rfl, rfl, rfl, rfl, cell_blank, rfl, rfl⟩

/-! ## The draw -/

theorem flagByte_eq_one_iff (c : Bool) : flagByte c = 1 ↔ c = true := by cases c <;> decide

theorem flagByte_eq_zero_iff (c : Bool) : flagByte c = 0 ↔ c = false := by cases c <;> decide

/-- The state a draw that completes leaves (R121). -/
def drawn (s : State) (x y : Reg) (n : Nat) : State :=
  (s.redraw (plotAll s.fb (s.targets x y n (spriteBytes s n))).1).setFlag
    (collision (plotAll s.fb (s.targets x y n (spriteBytes s n))).2)

section
variable {s : State} {x y : Reg} {n : Nat}

/-- With its bytes inside memory a draw completes (R45, R121). -/
theorem exec_drw_of_inside (inside : drawBytes s n = 0 ∨ s.index.toNat + drawBytes s n ≤ 4096) :
    exec (.drw x y n) s = .next (drawn s x y n) := by
  have completes : stopOf (.drw x y n) s = none := if_neg (by omega)
  obtain ⟨-, e⟩ := (exec_drw_cases s x y n).resolve_right (not_stops completes)
  exact e

/-- A draw writes no register but `VF`. -/
theorem reg_drawn_ne {r : Reg} (h : r ≠ vF) : (drawn s x y n).reg r = s.reg r := reg_setReg_ne _ _ h

/-- The cell a 1-pixel lands on is flipped. -/
theorem cell_drawn_of_drawnOn (hn : n ≤ 15) {r c : Nat} (on : drawnOn s x y n r c) :
    cell (drawn s x y n).fb r c = !cell s.fb r c := by
  have target := (mem_targets s x y n r c).mpr on
  exact ((plotAll_targets s x y n (spriteBytes s n) hn).1 r c).trans (by simp [target])

/-- A cell no 1-pixel lands on stays. -/
theorem cell_drawn_of_not_drawnOn (hn : n ≤ 15) {r c : Nat} (off : ¬ drawnOn s x y n r c) :
    cell (drawn s x y n).fb r c = cell s.fb r c := by
  have noTarget := mt (mem_targets s x y n r c).mp off
  exact ((plotAll_targets s x y n (spriteBytes s n) hn).1 r c).trans (by simp [noTarget])

/-- The flag of a draw is the collision noted while plotting. -/
theorem reg_drawn_flag : (drawn s x y n).reg vF = flagByte (plotAll s.fb (s.targets x y n (spriteBytes s n))).2 :=
  reg_setReg_self _ _ _

/-- Plotting notes a collision exactly when a 1-pixel lands on a set cell (decision D4). -/
theorem plotAll_collides_iff (hn : n ≤ 15) :
    (plotAll s.fb (s.targets x y n (spriteBytes s n))).2 = true ↔ ∃ r c, drawnOn s x y n r c ∧ cell s.fb r c = true := by
  rw [(plotAll_targets s x y n (spriteBytes s n) hn).2, List.any_eq_true, Prod.exists]
  simp only [mem_targets]

theorem drawn_flag_eq_one_iff (hn : n ≤ 15) :
    (drawn s x y n).reg vF = 1 ↔ ∃ r c, drawnOn s x y n r c ∧ cell s.fb r c = true := by
  rw [reg_drawn_flag, flagByte_eq_one_iff, plotAll_collides_iff hn]

theorem drawn_flag_eq_zero_iff (hn : n ≤ 15) :
    (drawn s x y n).reg vF = 0 ↔ ∀ r c, drawnOn s x y n r c → cell s.fb r c = false := by
  rw [reg_drawn_flag, flagByte_eq_zero_iff, ← Bool.not_eq_true, plotAll_collides_iff hn]
  simp only [not_exists, not_and, Bool.not_eq_true]

/-- Unless the flag is one of its coordinates, the same draw repeated lands on the same cells (R128): a draw writes neither
the coordinates nor the sprite, the mode or the quirks. -/
theorem drawnOn_drawn (hx : x ≠ vF) (hy : y ≠ vF) (r c : Nat) :
    drawnOn (drawn s x y n) x y n r c ↔ drawnOn s x y n r c := by
  unfold drawnOn
  rw [reg_drawn_ne hx, reg_drawn_ne hy]
  rfl

/-- Two equal draws flip a cell twice or not at all (R128). -/
theorem drawn_drawn_fb (hn : n ≤ 15) (hx : x ≠ vF) (hy : y ≠ vF) : (drawn (drawn s x y n) x y n).fb = s.fb := by
  refine framebuffer_ext fun r c _ _ => ?_
  by_cases on : drawnOn s x y n r c
  · rw [cell_drawn_of_drawnOn hn ((drawnOn_drawn hx hy r c).mpr on), cell_drawn_of_drawnOn hn on, Bool.not_not]
  · rw [cell_drawn_of_not_drawnOn hn (mt (drawnOn_drawn hx hy r c).mp on), cell_drawn_of_not_drawnOn hn on]

/-- The second of two equal draws collides on the cells that the first one set (R128). -/
theorem drawn_drawn_flag_eq_one_iff (hn : n ≤ 15) (hx : x ≠ vF) (hy : y ≠ vF) :
    (drawn (drawn s x y n) x y n).reg vF = 1 ↔ ∃ r c, drawnOn s x y n r c ∧ cell s.fb r c = false := by
  rw [drawn_flag_eq_one_iff hn]
  refine exists_congr fun r => exists_congr fun c => ?_
  rw [drawnOn_drawn hx hy]
  refine and_congr_right fun on => ?_
  rw [cell_drawn_of_drawnOn hn on, Bool.not_eq_true']

end

/-- Settles O36: the cells and the flag of `drawn`, one lemma each. -/
theorem drawFlipsItsCells : Obligations.DrawFlipsItsCells := fun _ _ _ _ hn inside =>
  ⟨_, exec_drw_of_inside inside, fun _ _ => ⟨cell_drawn_of_drawnOn hn, cell_drawn_of_not_drawnOn hn⟩,
    (drawn_flag_eq_one_iff hn).mpr, (drawn_flag_eq_zero_iff hn).mpr, fun _ => reg_drawn_ne, rfl, rfl⟩

/-- Settles O37: the first draw leaves `I` and the mode, so the second completes as well, and lands on the same cells. -/
theorem drawTwiceRestores : Obligations.DrawTwiceRestores := fun _ _ _ _ hn hx hy inside =>
  ⟨_, _, exec_drw_of_inside inside, exec_drw_of_inside inside, drawn_drawn_fb hn hx hy,
    drawn_drawn_flag_eq_one_iff hn hx hy⟩

/-! ## The scrolls -/

/-- The cell at `(r', c')` moves onto `(r, c)` in a region `rw` columns wide. -/
def movesOnto (dr : Nat) (dc : Int) (rw r c r' c' : Nat) : Prop := r' + dr = r ∧ (c' : Int) + dc = c ∧ c' < rw

/-- The new cells of a scroll are the old ones moved by `dr` rows and `dc` columns, with 0 where none moves to. -/
def movesBy (dr : Nat) (dc : Int) (fb : Framebuffer) (new : Nat → Nat → Nat → Bool) : Prop :=
  ∀ rw r c, c < rw →
    (∀ r' c', movesOnto dr dc rw r c r' c' → new rw r c = cell fb r' c') ∧
      ((∀ r' c', ¬ movesOnto dr dc rw r c r' c') → new rw r c = false)

/-- New cells that are read from a single source where there is one, and 0 elsewhere, are moved. -/
theorem movesBy_of_source {dr : Nat} {dc : Int} {fb : Framebuffer} {p : Nat → Nat → Nat → Prop}
    [∀ rw r c, Decidable (p rw r c)] {row col : Nat → Nat}
    (source : ∀ rw r c r' c', c < rw → (movesOnto dr dc rw r c r' c' ↔ p rw r c ∧ r' = row r ∧ c' = col c)) :
    movesBy dr dc fb fun rw r c => if p rw r c then cell fb (row r) (col c) else false := by
  refine fun rw r c hc => ⟨fun r' c' moves => ?_, fun vacated => if_neg fun hp => ?_⟩
  · obtain ⟨hp, rfl, rfl⟩ := (source rw r c r' c' hc).mp moves
    exact if_pos hp
  · exact vacated _ _ ((source rw r c _ _ hc).mpr ⟨hp, rfl, rfl⟩)

/-- Each scroll instruction is a scroll by its distance (R122, R123, R124). -/
theorem exec_scroll {s : State} {i : Instr} {dr : Nat} {dc : Int}
    (h : (∃ n, n ≤ 15 ∧ i = .scd n ∧ dr = n ∧ dc = 0) ∨ (i = .scr ∧ dr = 0 ∧ dc = 4) ∨ (i = .scl ∧ dr = 0 ∧ dc = -4)) :
    ∃ new, exec i s = .next (s.scroll new) ∧ movesBy dr dc s.fb new := by
  rcases h with ⟨n, -, rfl, rfl, rfl⟩ | ⟨rfl, rfl, rfl⟩ | ⟨rfl, rfl, rfl⟩
  · exact ⟨_, rfl, movesBy_of_source (row := (· - dr)) (col := fun c => c) fun _ _ _ _ _ _ => by unfold movesOnto; omega⟩
  · exact ⟨_, rfl, movesBy_of_source (row := fun r => r) (col := (· - 4)) fun _ _ _ _ _ _ => by unfold movesOnto; omega⟩
  · exact ⟨_, rfl, movesBy_of_source (row := fun r => r) (col := (· + 4)) fun _ _ _ _ _ _ => by unfold movesOnto; omega⟩

/-- A disabled scroll changes nothing (R127). -/
theorem scroll_of_disabled {s : State} (new : Nat → Nat → Nat → Bool) (std : s.ext = false) (noop : s.scrollStd = .noop) :
    s.scroll new = s := by
  have disabled : s.scrollRegion = none := by simp [State.scrollRegion, std, noop]
  simp [State.scroll, disabled]

/-- The region by mode and setting (R127, decision D10). -/
theorem scrollRegion_eq_some {s : State} {rh rw : Nat}
    (h : (s.ext = true ∧ rh = 64 ∧ rw = 128) ∨ (s.ext = false ∧ s.scrollStd = .logical ∧ rh = 32 ∧ rw = 64) ∨
      (s.ext = false ∧ s.scrollStd = .full ∧ rh = 64 ∧ rw = 128)) : s.scrollRegion = some (rh, rw) := by
  rcases h with ⟨he, rfl, rfl⟩ | ⟨he, hs, rfl, rfl⟩ | ⟨he, hs, rfl, rfl⟩ <;> simp [State.scrollRegion, *]

/-- Settles O38: outside the region the scroll keeps the cell, inside it takes the moved one. -/
theorem scrollsMoveTheRegion : Obligations.ScrollsMoveTheRegion := by
  intro s i dr dc h
  obtain ⟨new, e, moves⟩ := exec_scroll (s := s) h
  refine ⟨_, e, rfl, scroll_of_disabled new, ?_⟩
  intro rh rw region
  have enabled := scrollRegion_eq_some region
  refine ⟨by simp [enabled], fun r c hr hc => ?_⟩
  have scrolled : cell (s.scroll new).fb r c = if r < rh ∧ c < rw then new rw r c else cell s.fb r c := by
    rw [cell_scroll s new hr hc, enabled]
  refine ⟨fun outside => scrolled.trans (if_neg outside), fun inside => ?_⟩
  obtain ⟨moved, vacated⟩ := moves rw r c inside.2
  rw [scrolled, if_pos inside]
  exact ⟨fun r' c' hr' hc' hw => moved r' c' ⟨hr', hc', hw⟩, vacated⟩

end Sys2Proof.Proofs
end

section
/-!
PROOFS. The halt, keypad and timer family (spec/43_system_keys_timers.md): EXIT, the skips on a key, the edge that wait-for-key
looks for, and the timer moves.
-/

namespace Sys2Proof.Proofs

open Sys2Proof.Machine Sys2Proof.Laws

/-! ## The halt -/

/-- Settles O39: `halted` is the one field that EXIT writes. -/
theorem exitHalts : Obligations.ExitHalts := fun _ => ⟨_, rfl, rfl, rfl⟩

/-! ## The skips on a key -/

theorem keyAt_eq_getElem (keys : Keys) {k : Nat} (hk : k < 16) : keyAt keys k = keys[k] := by
  rw [keyAt, Vector.getElem?_eq_getElem hk, Option.getD_some]

/-- The `pc` after a skip on the opposite condition (R88). -/
theorem skipIf_not_pc_toNat (s : State) (c : Bool) :
    (s.skipIf !c).pc.toNat = if c then s.pc.toNat else (s.pc.toNat + 2) % 65536 := by
  rw [skipIf_pc_toNat]
  cases c <;> rfl

section
variable {s : State} {x : Reg} {k : Nat}

/-- SKP on an index below 16 skips on the sample of its key (R141). -/
theorem exec_skp_of_key (hk : k < 16) (h : (s.reg x).toNat = k) : exec (.skp x) s = .next (s.skipIf s.key[k]) := by
  have completes : stopOf (.skp x) s = none := if_neg (by omega)
  obtain ⟨-, -, e⟩ := (exec_skp_cases s x).resolve_right (not_stops completes)
  rw [e, h, keyAt_eq_getElem _ hk]

/-- SKNP on an index below 16 skips on the opposite of the sample of its key (R142). -/
theorem exec_sknp_of_key (hk : k < 16) (h : (s.reg x).toNat = k) : exec (.sknp x) s = .next (s.skipIf !s.key[k]) := by
  have completes : stopOf (.sknp x) s = none := if_neg (by omega)
  obtain ⟨-, -, e⟩ := (exec_sknp_cases s x).resolve_right (not_stops completes)
  rw [e, h, keyAt_eq_getElem _ hk]

end

/-- Settles O40: below 16 both are skips on the sample, and an index from 16 on is the listed condition of the stop. -/
theorem keySkips : Obligations.KeySkips := by
  refine fun x s => ⟨fun k hk named => ?_, fun beyond => ?_⟩
  · exact ⟨⟨_, exec_skp_of_key hk named, skipIf_eq s _, skipIf_pc_toNat s _⟩,
      ⟨_, exec_sknp_of_key hk named, skipIf_eq s _, skipIf_not_pc_toNat s _⟩⟩
  · exact ⟨stopsWith_of_stopOf (if_pos beyond), stopsWith_of_stopOf (if_pos beyond)⟩

/-! ## Wait-for-key -/

section
variable {s : State} {k : Nat}

/-- The edge is a change from the sample before, which is the opposite of the `press` quirk (R143). -/
theorem edge_iff (hk : k < 16) : s.edge k = true ↔ s.prev[k] = (!s.q.press) ∧ s.key[k] = !!s.q.press := by
  rw [State.edge, keyAt_eq_getElem _ hk, keyAt_eq_getElem _ hk]
  cases s.q.press <;> simp

/-- A key with the edge and none below it is the one that is found (decision D14). -/
theorem firstEdge_eq_some (hk : k < 16) (edge : s.edge k = true) (lowest : ∀ j < k, ¬ s.edge j = true) :
    s.firstEdge = some k :=
  List.find?_range_eq_some.mpr ⟨edge, List.mem_range.mpr hk, fun j hj => by simpa using lowest j hj⟩

/-- With no edge no key is found. -/
theorem firstEdge_eq_none (noEdge : ∀ k < 16, ¬ s.edge k = true) : s.firstEdge = none :=
  List.find?_eq_none.mpr fun k hk => noEdge k (List.mem_range.mp hk)

theorem exec_ldVxK_of_some (x : Reg) (h : s.firstEdge = some k) :
    exec (.ldVxK x) s = .next (s.setReg x (BitVec.ofNat 8 k)) := by
  simp only [exec, execLdVxK, h]

theorem exec_ldVxK_of_none (x : Reg) (h : s.firstEdge = none) : exec (.ldVxK x) s = .next s.rewind := by
  simp only [exec, execLdVxK, h]

/-- A rewound `pc` is at the instruction before it, modulo 65536 (R143). -/
theorem rewind_pc_toNat_add_two : (s.rewind.pc.toNat + 2) % 65536 = s.pc.toNat := by
  rw [rewind_pc]
  exact (BitVec.toNat_add ..).symm.trans (congrArg BitVec.toNat (BitVec.sub_add_cancel s.pc 2))

end

/-- Settles O41: the lowest edge is a write of `Vx` alone, and no edge is a rewind. -/
theorem waitForKey : Obligations.WaitForKey := by
  rintro x s _ rfl
  refine ⟨fun k hk before now lowest => ?_, fun noEdge => ?_⟩
  · have edge : s.edge k = true := (edge_iff hk).mpr ⟨before, now⟩
    have found := firstEdge_eq_some hk edge fun j hj => mt (edge_iff (hj.trans hk)).mp (lowest j hj)
    obtain ⟨t, stored, key, others, frame⟩ := writes_register_alone (exec_ldVxK_of_some x found)
    refine ⟨t, stored, ?_, others, frame⟩
    rw [key, BitVec.toNat_ofNat, Nat.mod_eq_of_lt (by omega)]
  · have none_found := firstEdge_eq_none fun k hk => mt (edge_iff hk).mp (noEdge k hk)
    exact ⟨_, exec_ldVxK_of_none x none_found, rewind_pc_toNat_add_two, rfl⟩

/-! ## The timers -/

theorem tone_eq_true_iff (s : State) : tone s = true ↔ s.st ≠ 0 := bne_iff_ne

/-- Settles O42: each move writes its own register or timer, and the tone follows `ST`. -/
theorem timerMoves : Obligations.TimerMoves :=
  fun _ _ => ⟨writes_register_alone rfl, ⟨_, rfl, rfl, rfl⟩, ⟨_, rfl, rfl, tone_eq_true_iff _, rfl⟩⟩

end Sys2Proof.Proofs
end

section
/-!
PROOFS. The index and memory family (spec/44_index_memory.md): the index register and the glyph addresses as numbers,
the two stores at `I` as one store of bytes, the block load, and the transfers to and from the RPL file.
-/

namespace Sys2Proof.Proofs

open Sys2Proof.Machine Sys2Proof.Laws

/-! ## The index register and the glyphs -/

/-- The 16-bit sum of `I` and a register (R161, decision D18). -/
theorem word_add_byte_toNat (w : Word) (b : Byte) : (w + b.zeroExtend 16).toNat = (w.toNat + b.toNat) % 65536 := by
  have byte_toNat : (b.zeroExtend 16).toNat = b.toNat := BitVec.toNat_setWidth_of_le (by decide)
  rw [BitVec.toNat_add, byte_toNat]

/-- The address of a small glyph fits 16 bits for every byte, digit or not (R162). -/
theorem smallGlyph_toNat (b : Byte) : (smallGlyph b).toNat = 0x50 + 5 * b.toNat :=
  Nat.mod_eq_of_lt (by simp only [Config.smallFontBase]; omega)

/-- The mask of a big glyph is a remainder by 16 (R163). -/
theorem bigGlyph_toNat (b : Byte) : (bigGlyph b).toNat = 0x100 + 10 * (b.toNat % 16) := by
  have masked : (b &&& 0x0F).toNat = b.toNat % 16 := by
    rw [BitVec.toNat_and]
    exact Nat.and_two_pow_sub_one_eq_mod _ 4
  rw [bigGlyph, masked]
  exact Nat.mod_eq_of_lt (by simp only [Config.bigFontBase]; omega)

/-- Settles O43: both write `I` alone. -/
theorem indexSetAndAdd : Obligations.IndexSetAndAdd :=
  fun nnn _ _ => ⟨⟨_, rfl, addrWord_toNat nnn, rfl⟩, ⟨_, rfl, word_add_byte_toNat .., rfl⟩⟩

/-- Settles O44: both write the glyph's address to `I` alone. -/
theorem fontPointers : Obligations.FontPointers :=
  fun _ _ => ⟨⟨_, rfl, smallGlyph_toNat _, rfl⟩, ⟨_, rfl, bigGlyph_toNat _, rfl⟩⟩

/-! ## A store of bytes -/

section
variable {m : Memory} {a : Nat} {bytes : List Byte} (hm : m.wf) (fits : a + bytes.length ≤ Config.memSize)
include hm fits

/-- A stored byte reads back at its own place (R44). -/
theorem memory_read_stored {k : Nat} (hk : k < bytes.length) :
    (m.writeBytes a bytes).read (a + k) = bytes.getD k 0 := by
  rw [memory_read_writeBytes hm fits, if_pos (by omega), Nat.add_sub_cancel_left]

/-- Outside the stored bytes memory reads as before (R44, R53). -/
theorem memory_read_outside_stored {b : Nat} (hb : b < a ∨ a + bytes.length ≤ b) :
    (m.writeBytes a bytes).read b = m.read b := by
  rw [memory_read_writeBytes hm fits, if_neg (by omega)]

end

/-- Of the two cases of an instruction that can stop, one without its listed condition takes the completing one (R184). -/
theorem next_of_completes {i : Instr} {s t : State} {c : StopCause} {P Q : Prop} (completes : stopOf i s = none)
    (h : (P ∧ stopOf i s = none ∧ exec i s = .next t) ∨ (stopOf i s = some c ∧ Q)) : exec i s = .next t := by
  obtain ⟨-, -, e⟩ := h.resolve_right (not_stops completes)
  exact e

/-! ## BCD -/

/-- A byte is at most 255, so each digit fits a byte. -/
theorem bcdDigits_toNat (b : Byte) :
    ((bcdDigits b).getD 0 0).toNat = b.toNat / 100 ∧ ((bcdDigits b).getD 1 0).toNat = b.toNat / 10 % 10 ∧
      ((bcdDigits b).getD 2 0).toNat = b.toNat % 10 := by
  have digit (d : Nat) (hd : d < 256) : (BitVec.ofNat 8 d).toNat = d := Nat.mod_eq_of_lt hd
  exact ⟨digit _ (by omega), digit _ (by omega), digit _ (by omega)⟩

/-- Settles O45: the digits are read back where they were stored, and 4096 is the listed condition of the stop. -/
theorem bcdStoresThreeDigits : Obligations.BcdStoresThreeDigits := by
  refine fun x s hm => ⟨fun inside => ?_, fun beyond => stopsWith_of_stopOf (if_pos (by omega))⟩
  have fits : s.index.toNat + (bcdDigits (s.reg x)).length ≤ Config.memSize := inside
  obtain ⟨hundreds, tens, units⟩ := bcdDigits_toNat (s.reg x)
  have stored (k : Nat) (hk : k < 3) :
      ((s.mem.writeBytes s.index.toNat (bcdDigits (s.reg x))).read (s.index.toNat + k)).toNat =
        ((bcdDigits (s.reg x)).getD k 0).toNat := congrArg BitVec.toNat (memory_read_stored hm fits hk)
  have completes : stopOf (.ldBVx x) s = none := if_neg (by omega)
  refine ⟨_, next_of_completes completes (exec_ldBVx_cases s x), (stored 0 (by decide)).trans hundreds,
    (stored 1 (by decide)).trans tens, (stored 2 (by decide)).trans units,
    fun b => memory_read_outside_stored hm fits, rfl⟩

/-! ## Block transfers -/

/-- A register's place in the list of the first registers (R165). -/
theorem firstRegs_getD (s : State) {n : Nat} {r : Reg} (h : r.val < n) : (s.firstRegs n).getD r.val 0 = s.reg r := by
  rw [List.getD_eq_getElem?_getD, firstRegs_getElem? s n r.val r.isLt, if_pos h, Option.getD_some]

/-- Settles O46: each register is read back where it was stored, and 4096 is the listed condition of the stop. -/
theorem blockStore : Obligations.BlockStore := by
  refine fun x s hm => ⟨fun inside => ?_, fun beyond => stopsWith_of_stopOf (if_pos (by omega))⟩
  have size := firstRegs_block_length s x
  have fits : s.index.toNat + (s.firstRegs (x.val + 1)).length ≤ Config.memSize := size.symm ▸ inside
  have completes : stopOf (.ldMemVx x) s = none := if_neg (by omega)
  refine ⟨_, next_of_completes completes (exec_ldMemVx_cases s x), fun r hr => ?_, fun b hb => ?_,
    blockIndex_toNat s x, rfl⟩
  · rw [memory_read_stored hm fits (by omega), firstRegs_getD s (by omega)]
  · exact memory_read_outside_stored hm fits (by rwa [size])

/-- A register after a load of `n` bytes: the byte at its place, or as before from register `n` on (R166). -/
theorem reg_setRegs_readBytes (s : State) (a n : Nat) (r : Reg) :
    (s.setRegs (s.mem.readBytes a n)).reg r = if r.val < n then s.mem.read (a + r.val) else s.reg r := by
  rw [reg_setRegs, memory_readBytes_getElem?]
  split <;> rfl

/-- Settles O47: `Vx` is the last register the load reaches, and 4096 is the listed condition of the stop. -/
theorem blockLoad : Obligations.BlockLoad := by
  refine fun x s => ⟨fun inside => ?_, fun beyond => stopsWith_of_stopOf (if_pos (by omega))⟩
  have loaded := reg_setRegs_readBytes s s.index.toNat (x.val + 1)
  have completes : stopOf (.ldVxMem x) s = none := if_neg (by omega)
  refine ⟨_, next_of_completes completes (exec_ldVxMem_cases s x), fun r hr => ?_, fun r hr => ?_,
    blockIndex_toNat s x, rfl⟩
  · exact (loaded r).trans (if_pos (by omega))
  · exact (loaded r).trans (if_neg (by omega))

/-! ## RPL transfers -/

/-- Below eight the clamp of the count does not show (R167, R168). -/
theorem lt_rplCount_iff {k : Nat} (x : Reg) (hk : k < 8) : k < rplCount x ↔ k ≤ x.val := by
  unfold rplCount
  omega

/-- An RPL byte after the first `n` registers are saved (R167). -/
theorem rpl_setRpl_firstRegs (s : State) (n : Nat) {k : Nat} (hk : k < 8) :
    (s.setRpl (s.firstRegs n)).rpl[k] = if k < n then s.reg ⟨k, by omega⟩ else s.rpl[k] := by
  rw [rpl_setRpl s _ k hk, firstRegs_getElem? s n k (by omega)]
  split <;> rfl

/-- A register below eight after the first `n` RPL bytes are loaded (R168). -/
theorem reg_setRegs_take_rpl (s : State) (n : Nat) {k : Nat} (hk : k < 8) :
    (s.setRegs (s.rpl.toList.take n)).reg ⟨k, by omega⟩ = if k < n then s.rpl[k] else s.reg ⟨k, by omega⟩ := by
  rw [reg_setRegs, List.getElem?_take, Vector.getElem?_toList, Vector.getElem?_eq_getElem hk]
  split <;> rfl

/-- The RPL file has no byte for a register from eight on (R168). -/
theorem reg_setRegs_take_rpl_of_le (s : State) (n : Nat) {r : Reg} (h : 8 ≤ r.val) :
    (s.setRegs (s.rpl.toList.take n)).reg r = s.reg r := by
  have beyond : (s.rpl.toList.take n).length ≤ r.val := by
    rw [List.length_take, Vector.length_toList]
    omega
  rw [reg_setRegs, List.getElem?_eq_none beyond, Option.getD_none]

/-- Settles O48: save and load move the first `rplCount x` bytes, which below eight are those up to `x`. -/
theorem rplTransfers : Obligations.RplTransfers := by
  refine fun x s => ⟨⟨_, rfl, fun k hk => ?_, rfl⟩,
    ⟨_, rfl, fun k hk => ?_, fun r => reg_setRegs_take_rpl_of_le s _, rfl⟩⟩
  · simp only [rpl_setRpl_firstRegs s _ hk, lt_rplCount_iff x hk]
  · simp only [reg_setRegs_take_rpl s _ hk, lt_rplCount_iff x hk]

end Sys2Proof.Proofs
end

section
/-!
PROOFS. The exceptions family (spec/60_exceptions.md): the stop latch after an instruction, the codes of the stop output, and
Tick.
-/

namespace Sys2Proof.Proofs

open Sys2Proof.Machine Sys2Proof.Laws

/-! ## The stop latch -/

/-- The latch is no field that a completed instruction writes (R27, R184). -/
@[simp] theorem written_stop (i : Instr) (s t : State) : (written i s t).stop = s.stop := by
  cases i <;> rfl

/-- Settles O49: an instruction stops with its listed cause, or completes and leaves the latch outside `written`. Every operand
is covered, so well-formedness is not used. -/
theorem instructionsStopExactlyWhereListed : Obligations.InstructionsStopExactlyWhereListed := by
  intro i s _
  rcases exec_cases i s with ⟨c, stops, executed⟩ | ⟨completes, t, executed, frame⟩
  · refine ⟨s.stopped c, executed, ?_⟩
    rw [stops]
    rfl
  · refine ⟨t, executed, ?_⟩
    rw [completes, frame, written_stop]

/-- Settles O59: one code for each value of the latch. -/
theorem stopCodes : Obligations.StopCodes := by
  intro s
  refine ⟨?_, ?_, ?_, ?_, ?_⟩ <;> intro latch <;> rw [stopCode, latch]

/-! ## The timers -/

/-- Settles O10: the Tick is performed on the rest of the script (O13), and each timer is counted down by itself. -/
theorem tickCountsBothTimersDown : Obligations.TickCountsBothTimersDown := by
  intro s rest running scripted
  refine ⟨tick { s with script := rest }, ?_, countDown_toNat s.dt, countDown_toNat s.st, rfl⟩
  rw [(scriptIsTakenInOrder s).1 _ _ scripted]
  simp [perform, running]

end Sys2Proof.Proofs
end

section
/-!
PROOFS. The reset family (spec/70_reset_and_hazards.md): the memory image of R201 and the size limit of R202.
-/

namespace Sys2Proof.Proofs

open Sys2Proof.Machine Sys2Proof.Laws

variable {small : Vector Byte 80} {big : Vector Byte 160} {rom : List Byte} {a : Nat}

/-- Outside both font areas an address that the list does not name reads as zero (R201, decision D22). -/
theorem memory_unlisted_outside_fonts (outsideSmall : ¬ (0x050 ≤ a ∧ a < 0x0A0))
    (outsideBig : ¬ (0x100 ≤ a ∧ a < 0x1A0)) :
    Memory.unlisted a = 0 :=
  (if_neg outsideSmall).trans (if_neg outsideBig)

/-- The image in the order of R201's table: the areas are disjoint, so the order in which they are tried does not
matter. -/
theorem memory_read_image_fonts_first (fits : rom.length ≤ Config.romCapacity) :
    (Memory.image small big rom).read a =
      if 0x050 ≤ a ∧ a < 0x0A0 then small.toList.getD (a - 0x050) 0
      else if 0x100 ≤ a ∧ a < 0x1A0 then big.toList.getD (a - 0x100) 0
      else if 0x200 ≤ a ∧ a < 0x200 + rom.length then rom.getD (a - 0x200) 0
      else 0 := by
  rw [memory_read_image fits]
  by_cases inSmall : 0x050 ≤ a ∧ a < 0x0A0
  · rw [if_pos inSmall, if_neg (by omega), if_neg (by omega), if_pos inSmall]
  · by_cases inBig : 0x100 ≤ a ∧ a < 0x1A0
    · rw [if_neg (by omega), if_pos inBig, if_neg inSmall, if_pos inBig]
    · simp only [if_neg inSmall, if_neg inBig, memory_unlisted_outside_fonts inSmall inBig]

/-- Settles O16: R202 is the guard of the reset, and what passes it holds the image of R201. -/
theorem resetMemoryImage : Obligations.ResetMemoryImage := by
  intro q sc small big rom
  constructor
  · intro oversize
    exact if_neg (Nat.not_le.2 oversize)
  · intro fits
    exact ⟨_, if_pos fits, rfl, fun _ _ => memory_read_image_fonts_first fits⟩

end Sys2Proof.Proofs
end
